-- ==== Sys2Proof/Word.lean ====
section
/-!
DEFINITION. The words of the decoder and the symbols it places in its output: bytes, 3-bit fields,
16-bit addresses, register, pair and direction identifiers (10_state.md R21 to R24). None of the
symbols is storage: the block has no register file.
-/
namespace Sys2Proof

/-- One image byte, opcode byte or operand byte: 8 bits, unsigned (00_scope.md R5, `BYTE_W`). -/
abbrev Byte := BitVec 8

/-- A register field of an opcode byte: 3 bits (R5, `FIELD_W`). -/
abbrev RegField := BitVec 3

/-- The direct address of STA and LDA: 16 bits (R5, `ADDR16_W`). -/
abbrev Addr16 := BitVec 16

/-- The eight register identifiers in the fixed order of R22, index 0 to 7. `M` is the placeholder
"Memory" (index 6). -/
inductive Reg where
  | B | C | D | E | H | L | M | A
  deriving DecidableEq, Repr

/-- The two register pairs of the indirect family (R23; the set is the spec's decision D3). -/
inductive Pair where
  | B | D
  deriving DecidableEq, Repr

/-- Store from the accumulator or load into it (R24). -/
inductive Dir where
  | Store | Load
  deriving DecidableEq, Repr

end Sys2Proof
end

