-- ==== Sys2Proof/Config.lean ====
section
/-!
DEFINITION. The implementation parameters of 00_scope.md R5. The fixed ones are constants; the three
marked OPEN are the fields of `Config`, an argument of every function that uses one. Below them the
values no rule gives: what the operand ports carry when they carry no operand (R86, 93 A9).
-/
namespace Sys2Proof

/-- The parameters R5 marks OPEN, each with the default the spec's vectors use. -/
structure Config where
  /-- `MAX_IMAGE_LEN`: the longest image one pass accepts (R19, D6). -/
  maxImageLen : Nat := 2 ^ 29
  /-- `ADDR_HEX_WIDTH`: least number of hex digits of a line address (R104, D9). -/
  addrHexWidth : Nat := 8
  /-- `IMM_HEX_WIDTH`: least number of hex digits of an MVI literal (R109, D8). -/
  immHexWidth : Nat := 2
  deriving DecidableEq, Repr

/-- The default parameters of R5. -/
def Config.default : Config := {}

/-- R19's relation between the two parameters: every display address below `8 * MAX_IMAGE_LEN` has
at most `ADDR_HEX_WIDTH` hex digits. -/
def Config.AddressesFit (cfg : Config) : Prop := 8 * (cfg.maxImageLen - 1) < 16 ^ cfg.addrHexWidth

/-- `UNITS_PER_BYTE`: address-counter units per consumed byte (R5). -/
abbrev unitsPerByte : Nat := 8

/-- `MAX_INSN_LEN`: the longest instruction, in bytes (R5). -/
abbrev maxInsnLen : Nat := 3

/-- Free value: what the `imm8` port carries when it carries no operand (R86, 93 A9), as a function
of the stage's inputs `op b1 b2 avail`. No body: nothing can be proved about it. -/
opaque Config.freeImm8 : Byte → Byte → Byte → BitVec 2 → Byte

/-- Free value: what the `addr16` port carries when it carries no operand (R86, 93 A9). -/
opaque Config.freeAddr16 : Byte → Byte → Byte → BitVec 2 → Addr16

end Sys2Proof
end

