-- ==== Sys2Proof/Syntax.lean ====
section
/-!
DEFINITION. The instructions, one constructor for each row of spec/opcode_table.json. The operands are
those the decode stage reads from the instruction's own bytes (40_classifier.md R69 to R78).
-/
namespace Sys2Proof

/-- An encoded instruction. `unknown` keeps the byte it stands for, so that decoding forgets no bit of
the image; the emitted line does not show it (R78, R114; log 6). -/
inductive Instr where
  | nop
  | mov (d s : Reg)
  | mvi (d : Reg) (imm : Byte)
  | staxB
  | staxD
  | ldaxB
  | ldaxD
  | sta (a : Addr16)
  | lda (a : Addr16)
  | unknown (op : Byte)
  deriving DecidableEq, Repr

end Sys2Proof
end

