-- ==== Sys2Proof/WellFormed.lean ====
section
/-!
DEFINITION. Which instruction terms stand for bytes. Only `unknown` has a condition: its byte is one of
the 177 values that 30_encoding.md R60 lists, written here from that list and not from the classifier.
-/
namespace Sys2Proof

/-- The unrecognised byte values below 0x40, as inclusive ranges, in the order R60 lists them. -/
def unrecognisedRanges : List (Nat × Nat) :=
  [(0x01, 0x01), (0x03, 0x05), (0x07, 0x09), (0x0B, 0x0D), (0x0F, 0x11), (0x13, 0x15)] ++
  [(0x17, 0x19), (0x1B, 0x1D), (0x1F, 0x25), (0x27, 0x2D), (0x2F, 0x31), (0x33, 0x35)] ++
  [(0x37, 0x39), (0x3B, 0x3D), (0x3F, 0x3F), (0x80, 0xFF)]

/-- `op` is one of the 177 byte values of R60. -/
def unrecognised (op : Byte) : Bool :=
  unrecognisedRanges.any fun r => decide (r.1 ≤ op.toNat) && decide (op.toNat ≤ r.2)

/-- The term stands for bytes of an image. -/
def Instr.wf : Instr → Bool
  | .unknown op => unrecognised op
  | .nop | .mov _ _ | .mvi _ _ | .staxB | .staxD | .ldaxB | .ldaxD | .sta _ | .lda _ => true

end Sys2Proof
end

