-- ==== Sys2Proof/Decode.lean ====
section
/-!
DEFINITION. The combinational decode stage as functions of bytes: bit-field slicer (30_encoding.md R47),
classifier (40_classifier.md R66 to R68), length detector (41_length_operands.md R80), decoder with
truncation check (R84, R87), and the encoder written from the formats of R48.
-/
namespace Sys2Proof

/-! ### Bit fields -/

/-- `op[7:6]` (R47). -/
def topField (op : Byte) : BitVec 2 := op.extractLsb' 6 2

/-- `op[5:3]`, the destination field (R47, R79). -/
def dstField (op : Byte) : RegField := op.extractLsb' 3 3

/-- `op[2:0]`, the source field (R47, R79). -/
def srcField (op : Byte) : RegField := op.extractLsb' 0 3

/-- `reg(k)`: the identifier at index `k` (R22). -/
def Reg.ofField (k : RegField) : Reg :=
  match k.toNat with
  | 0 => .B
  | 1 => .C
  | 2 => .D
  | 3 => .E
  | 4 => .H
  | 5 => .L
  | 6 => .M
  | _ => .A

/-- The index of an identifier (R22). -/
def Reg.field : Reg → RegField
  | .B => 0
  | .C => 1
  | .D => 2
  | .E => 3
  | .H => 4
  | .L => 5
  | .M => 6
  | .A => 7

/-! ### Classifier and length detector -/

/-- The classifier's tagged result (R66). -/
inductive Class where
  | nop
  | mov (d s : Reg)
  | mvi (d : Reg)
  | ind (dir : Dir) (p : Pair)
  | direct (dir : Dir)
  | unk
  deriving DecidableEq, Repr

/-- The classifier, its tests in the order of R67 and R68. The six exact values are the spec's
decision D2 (log 7, PRESUMED). -/
def classify (op : Byte) : Class :=
  if op = 0x00#8 then .nop
  else if op = 0x02#8 then .ind .Store .B
  else if op = 0x12#8 then .ind .Store .D
  else if op = 0x0A#8 then .ind .Load .B
  else if op = 0x1A#8 then .ind .Load .D
  else if op = 0x32#8 then .direct .Store
  else if op = 0x3A#8 then .direct .Load
  else if topField op = 0b01#2 then .mov (Reg.ofField (dstField op)) (Reg.ofField (srcField op))
  else if topField op = 0b00#2 ∧ srcField op = 0b110#3 then .mvi (Reg.ofField (dstField op))
  else .unk

/-- The length in bytes of an instruction of a class (R80). -/
def Class.len : Class → Nat
  | .mvi _ => 2
  | .direct _ => 3
  | .nop | .mov _ _ | .ind _ _ | .unk => 1

/-- `len(op)` (R80): a function of the opcode byte alone. -/
def insnLen (op : Byte) : Nat := (classify op).len

/-- `extra(op)`, the number of operand bytes (R81). -/
def extraBytes (op : Byte) : Nat := insnLen op - 1

/-! ### Decoder -/

/-- `hi ++ lo`, the 16-bit value `(hi << 8) | lo` (R8, R32, R53). -/
def assembleAddr (hi lo : Byte) : Addr16 := hi ++ lo

/-- What the decoder makes of the bytes from the cursor on. `truncated` is R87's; `noOpcode` is the
answer to no byte at all, which R87 excludes (it is asked only where `cur < n`). -/
inductive DecodeResult where
  | ok (i : Instr) (len : Nat)
  | truncated
  | noOpcode
  deriving DecidableEq, Repr

/-- Operand assembly (R50 to R53, R87): the first byte after the opcode is the MVI literal or the low
address byte, the second is the high address byte. Where an operand byte is missing the answer is
`truncated`, whatever the bytes that are there (R84). -/
def decodeOperands (op : Byte) : Class → List Byte → DecodeResult
  | .nop, _ => .ok .nop 1
  | .mov d s, _ => .ok (.mov d s) 1
  | .mvi d, imm :: _ => .ok (.mvi d imm) 2
  | .mvi _, [] => .truncated
  | .ind .Store .B, _ => .ok .staxB 1
  | .ind .Store .D, _ => .ok .staxD 1
  | .ind .Load .B, _ => .ok .ldaxB 1
  | .ind .Load .D, _ => .ok .ldaxD 1
  | .direct .Store, lo :: hi :: _ => .ok (.sta (assembleAddr hi lo)) 3
  | .direct .Load, lo :: hi :: _ => .ok (.lda (assembleAddr hi lo)) 3
  | .direct _, [_] => .truncated
  | .direct _, [] => .truncated
  | .unk, _ => .ok (.unknown op) 1

/-- The decoder, total on the bytes from the cursor to the end of the image (or any prefix of them of
three bytes or more). -/
def decode : List Byte → DecodeResult
  | [] => .noOpcode
  | op :: rest => decodeOperands op (classify op) rest

/-! ### Encoder -/

/-- The bytes of an instruction, from the formats F1, F2, F3 of R48 and the byte values of R54 to R57. -/
def encode : Instr → List Byte
  | .nop => [0x00#8]
  | .mov d s => [0b01#2 ++ d.field ++ s.field]
  | .mvi d imm => [0b00#2 ++ d.field ++ 0b110#3, imm]
  | .staxB => [0x02#8]
  | .staxD => [0x12#8]
  | .ldaxB => [0x0A#8]
  | .ldaxD => [0x1A#8]
  | .sta a => [0x32#8, a.extractLsb' 0 8, a.extractLsb' 8 8]
  | .lda a => [0x3A#8, a.extractLsb' 0 8, a.extractLsb' 8 8]
  | .unknown op => [op]

/-- The length of an instruction in bytes (R82). -/
def Instr.len : Instr → Nat
  | .mvi _ _ => 2
  | .sta _ | .lda _ => 3
  | .nop | .mov _ _ | .staxB | .staxD | .ldaxB | .ldaxD | .unknown _ => 1

/-! ### The opcode table's numbering of bits -/

/-- The three bytes of an instruction whose bits are `w`, byte `k` at bits `8k+7 .. 8k`, every bit at
or above `nbits` zero. -/
def tableBytes (nbits w : Nat) : List Byte :=
  [BitVec.ofNat 8 (w % 2 ^ nbits), BitVec.ofNat 8 (w % 2 ^ nbits / 2 ^ 8),
   BitVec.ofNat 8 (w % 2 ^ nbits / 2 ^ 16)]

/-- The instruction the decoder reads from an instruction whose bits are `w`, numbered as the opcode
table numbers them. -/
def decodeTableWord (nbits w : Nat) : Option Instr :=
  match decode (tableBytes nbits w) with
  | .ok i _ => some i
  | .truncated | .noOpcode => none

end Sys2Proof
end

