-- ==== Sys2Proof/Machine/State.lean ====
section
/-!
DEFINITION. The wrapper's state (10_state.md R12 to R17, R25, R28), plain data, and the reasons a step
can stop.
-/
namespace Sys2Proof.Machine

/-- The one memory: a program image of `len` bytes (R12, R29). `cells` lists, by strictly rising index,
the bytes that differ from `unlistedByte`; the canonical form is `Memory.wf`. Log 2. -/
structure Memory where
  len : Nat
  cells : List Host.Cell
  deriving DecidableEq, Repr

/-- What an index below the length reads as when `cells` does not list it. A choice of representation
only: every image has exactly one canonical form (log 2, DESIGN CHOICE). -/
def Memory.unlistedByte : Byte := 0x00#8

/-- `cells` is canonical from index `lo` on: rising indices below `len`, no `unlistedByte`. -/
def Memory.cellsWf (len : Nat) : Nat → List Host.Cell → Bool
  | _, [] => true
  | lo, (a, b) :: rest =>
    decide (lo ≤ a) && decide (a < len) && decide (b ≠ Memory.unlistedByte) &&
      Memory.cellsWf len (a + 1) rest

/-- The canonical form: equal images are equal data. -/
def Memory.wf (m : Memory) : Bool := Memory.cellsWf m.len 0 m.cells

/-- The decoded instruction a line carries, exactly the type of 41_length_operands.md R85. -/
inductive Decoded where
  | NOP
  | MOV (d s : Reg)
  | MVI (d : Reg) (imm : Byte)
  | STAX (p : Pair)
  | LDAX (p : Pair)
  | STA (a : Addr16)
  | LDA (a : Addr16)
  | UNKNOWN
  deriving DecidableEq, Repr

/-- A decoded line: the address counter at the start of the instruction, and the instruction (R25). -/
structure Line where
  addr : Nat
  instr : Decoded
  deriving DecidableEq, Repr

/-- The state of a pass. `img` is the host's image, an input the pass only reads (R12; log 1). -/
structure State where
  /-- The image and its length `n` (R12). -/
  img : Memory
  /-- The cursor (R13). -/
  cur : Nat
  /-- The address counter (R14). -/
  ac : Nat
  /-- The fault record: the display address of a truncated instruction (R15). -/
  fault : Option Nat
  /-- The emitted lines, oldest first (R16). -/
  lines : List Line
  deriving DecidableEq, Repr

/-- Right after reset (R28, R127), with the host having supplied the empty image: nothing is listed. -/
def State.reset : State :=
  { img := { len := 0, cells := [] }, cur := 0, ac := 0, fault := none, lines := [] }

/-- Why no step is taken. Both are the terminal phases of R93, raised by `step` and by every meaning;
both are safe: the hardware takes no step there either. -/
inductive Fault where
  /-- Phase Done: the cursor is at the end of the image (R93, R94). Safe. -/
  | passDone
  /-- Phase Failed: the fault record is set (R93, R120). Safe. -/
  | passFailed
  deriving DecidableEq, Repr

/-- What the model has no meaning for. -/
inductive Refusal where
  /-- `exec` alone: an instruction of the table that has no meaning yet. No arm uses it. Safe. -/
  | notModelled (mnemonic : String)
  /-- `start`: the image is longer than `MAX_IMAGE_LEN`, so the pass does not start (R19, 93 A6). Safe. -/
  | imageTooLong
  /-- `changeImage`: the host changed the image during a pass, a run without meaning (R42, 93 A7). Safe. -/
  | imageChangedDuringPass
  /-- `stepViaPorts`: class code 5 or 6 on the `cls` port (R62, 93 A10); the stage never drives one. Safe. -/
  | unusedClassCode
  deriving DecidableEq, Repr

end Sys2Proof.Machine
end

