-- ==== Sys2Proof/Machine/Flags.lean ====
section
/-!
DEFINITION. The block has no flags (10_state.md R20, R21). Its only status is the phase, derived from
the state (R17), and the output ports that show it (R27, R116).
-/
namespace Sys2Proof.Machine

/-- The three phases of R17. -/
inductive Phase where
  | run
  | done
  | failed (a : Nat)
  deriving DecidableEq, Repr

/-- The phase (R17). A cursor past the end, which no run reaches (R13), counts as Done (log 4). -/
def State.phase (s : State) : Phase :=
  match s.fault with
  | some a => .failed a
  | none => if s.cur < s.img.len then .run else .done

/-- The wrapper's status outputs (R27, R116). `failAddr` carries an address in phase Failed only. -/
structure StatusPorts where
  done : BitVec 1
  fail : BitVec 1
  failAddr : Option Nat
  deriving DecidableEq, Repr

/-- The status outputs of a state. The `fail` port shows the fault code: 1 is Truncated, 0 is no fault
(R116). -/
def State.ports (s : State) : StatusPorts :=
  match s.phase with
  | .run => ⟨0, 0, none⟩
  | .done => ⟨1, 0, none⟩
  | .failed a => ⟨0, 1, some a⟩

/-- How a pass ended (R96). -/
inductive PassOutcome where
  | done
  | failed (a : Nat)
  deriving DecidableEq, Repr

/-- The outcome a state shows: none while the pass runs (R96). -/
def State.outcome (s : State) : Option PassOutcome :=
  match s.phase with
  | .run => none
  | .done => some .done
  | .failed a => some (.failed a)

end Sys2Proof.Machine
end

