-- ==== Sys2Proof/Machine/Ops.lean ====
section
/-!
DEFINITION. The named operations: reading the image, supplying one (the host's side), fetching and
decoding at the cursor, emitting a line and advancing, and taking the one exception.
-/
namespace Sys2Proof.Machine

/-! ### The image -/

/-- The byte listed for index `i`, or `unlistedByte`. -/
def Memory.cellAt : List Host.Cell → Nat → Byte
  | [], _ => Memory.unlistedByte
  | (a, b) :: rest, i => if a = i then b else Memory.cellAt rest i

/-- `MemRead(i, 1)` (00_scope.md R9): defined only for an index below the length (20_memory.md R29). -/
def Memory.read (m : Memory) (i : Nat) : Option Byte :=
  if i < m.len then some (Memory.cellAt m.cells i) else none

/-- The bytes of the image in index order: the sequence `img` of R12. -/
def Memory.bytes (m : Memory) : List Byte := (List.range m.len).map (Memory.cellAt m.cells)

/-- The bytes the image has at `i`, `i + 1` and `i + 2`: what the ports `op`, `b1`, `b2` carry when the
cursor is at `i` (10_state.md R26). Its length is `avail` (R83), and it holds no byte past the end. -/
def Memory.window (m : Memory) (i : Nat) : List Byte :=
  (List.range maxInsnLen).filterMap fun k => m.read (i + k)

/-- List byte `b` at index `i`, keeping the canonical form. -/
def Memory.setCell (i : Nat) (b : Byte) : List Host.Cell → List Host.Cell
  | [] => if b = Memory.unlistedByte then [] else [(i, b)]
  | (a, c) :: rest =>
    if a < i then (a, c) :: Memory.setCell i b rest
    else
      let tail := if a = i then rest else (a, c) :: rest
      if b = Memory.unlistedByte then tail else (i, b) :: tail

/-- HOST SIDE, never the block's (`MemWrite` is never used, R9): the image with `b` at index `i`,
lengthened to include `i`. -/
def Memory.write (m : Memory) (i : Nat) (b : Byte) : Memory :=
  { len := max m.len (i + 1), cells := Memory.setCell i b m.cells }

/-- HOST SIDE: the image with `bs` at the indices from `i` on. -/
def Memory.place (m : Memory) (i : Nat) : List Byte → Memory
  | [] => m
  | b :: bs => (m.write i b).place (i + 1) bs

/-- The canonical cells of `bs` laid out from index `i` on. -/
def Memory.cellsOf (i : Nat) : List Byte → List Host.Cell
  | [] => []
  | b :: bs =>
    if b = Memory.unlistedByte then Memory.cellsOf (i + 1) bs
    else (i, b) :: Memory.cellsOf (i + 1) bs

/-- HOST SIDE: the image that is the byte sequence `bs` (R12, R130). -/
def Memory.ofBytes (bs : List Byte) : Memory := { len := bs.length, cells := Memory.cellsOf 0 bs }

/-! ### Fetch -/

/-- `decodeAt(img, cur)` (41_length_operands.md R87): the decoder on the bytes at the cursor. -/
def decodeAt (m : Memory) (cur : Nat) : DecodeResult := decode (m.window cur)

/-- The number of image bytes from the cursor on, saturated at 3 (R83). -/
def State.avail (s : State) : Nat := min (s.img.len - s.cur) maxInsnLen

/-! ### The writes of a step -/

/-- Append the line `(ac, d)` (45_decode_loop.md R92). -/
def State.emit (s : State) (d : Decoded) : State := { s with lines := s.lines ++ [⟨s.ac, d⟩] }

/-- Advance the cursor by `len` and the address counter by `8 * len` (R90, R91). -/
def State.advance (s : State) (len : Nat) : State :=
  { s with cur := s.cur + len, ac := s.ac + unitsPerByte * len }

/-- TAKING THE EXCEPTION `Truncated` (60_exceptions.md R117): the fault record takes the display address
of the opcode; cursor, address counter and lines stay. There is no return: Failed is terminal (R120). -/
def State.takeTruncated (s : State) : State := { s with fault := some s.ac }

/-- What every instruction does in one step (R89): in phase Run, raise `Truncated` if fewer than `len`
bytes remain (R84), else emit the line and advance; in a terminal phase no step is taken (R93). -/
def retire (d : Decoded) (len : Nat) (s : State) : Host.Outcome State Fault Refusal :=
  match s.phase with
  | .done => .fault .passDone
  | .failed _ => .fault .passFailed
  | .run =>
    if s.img.len - s.cur < len then .next s.takeTruncated
    else .next ((s.emit d).advance len)

end Sys2Proof.Machine
end

