-- ==== Sys2Proof/Machine/Accumulator.lean ====
section
/-!
DEFINITION. The meanings of STAX, LDAX, STA and LDA (40_classifier.md R72 to R77). The accumulator and
the addressed memory are not part of the block: it only reports the operand (20_memory.md R31).
-/
namespace Sys2Proof.Machine

/-- STAX B (R72): one byte. -/
def execStaxB (s : State) : Host.Outcome State Fault Refusal := retire (.STAX .B) 1 s

/-- STAX D (R73): one byte. -/
def execStaxD (s : State) : Host.Outcome State Fault Refusal := retire (.STAX .D) 1 s

/-- LDAX B (R74): one byte. -/
def execLdaxB (s : State) : Host.Outcome State Fault Refusal := retire (.LDAX .B) 1 s

/-- LDAX D (R75): one byte. -/
def execLdaxD (s : State) : Host.Outcome State Fault Refusal := retire (.LDAX .D) 1 s

/-- STA a16 (R76): three bytes; `Truncated` when fewer than two bytes follow the opcode. -/
def execSta (a : Addr16) (s : State) : Host.Outcome State Fault Refusal := retire (.STA a) 3 s

/-- LDA a16 (R77): three bytes; `Truncated` as for STA. -/
def execLda (a : Addr16) (s : State) : Host.Outcome State Fault Refusal := retire (.LDA a) 3 s

end Sys2Proof.Machine
end

