-- ==== Sys2Proof/Machine/Moves.lean ====
section
/-!
DEFINITION. The meanings of NOP, MOV and MVI (40_classifier.md R69 to R71). The block executes nothing
(R4): a meaning is the line it emits and the length it consumes, or the truncation fault.
-/
namespace Sys2Proof.Machine

/-- NOP (R69): one byte. -/
def execNop (s : State) : Host.Outcome State Fault Refusal := retire .NOP 1 s

/-- MOV d s (R70): one byte; Memory is an operand like any other, also as both (0x76). -/
def execMov (d s : Reg) (σ : State) : Host.Outcome State Fault Refusal := retire (.MOV d s) 1 σ

/-- MVI d imm8 (R71): two bytes; `Truncated` when the opcode is the last byte. -/
def execMvi (d : Reg) (imm : Byte) (s : State) : Host.Outcome State Fault Refusal :=
  retire (.MVI d imm) 2 s

end Sys2Proof.Machine
end

