-- ==== Sys2Proof/Machine/Unrecognised.lean ====
section
/-!
DEFINITION. The meaning of an unrecognised byte (40_classifier.md R78): not an error, one byte, the line
`UNKNOWN`.
-/
namespace Sys2Proof.Machine

/-- UNKNOWN (R78): one byte, whatever its value; the line does not show the byte. -/
def execUnknown (_op : Byte) (s : State) : Host.Outcome State Fault Refusal := retire .UNKNOWN 1 s

end Sys2Proof.Machine
end

