-- ==== Sys2Proof/Machine/Step.lean ====
section
/-!
DEFINITION. One step of the wrapper (45_decode_loop.md R89, R93), and the host's placing of one
instruction where the next step fetches it.
-/
namespace Sys2Proof.Machine

/-- R89: in phase Run, decode at the cursor and run the instruction, or take `Truncated`. In a terminal
phase no step is taken (R93). `noOpcode` does not arise in phase Run: there is a byte at the cursor. -/
def step (s : State) : Host.Outcome State Fault Refusal :=
  match s.phase with
  | .done => .fault .passDone
  | .failed _ => .fault .passFailed
  | .run =>
    match decodeAt s.img s.cur with
    | .ok i _ => exec i s
    | .truncated => .next s.takeTruncated
    | .noOpcode => .fault .passDone

/-- `s` with the instruction of bits `w` in the image at the cursor, and in phase Run: the bytes of that
instruction only (its length by R80) are placed, the image lengthened to hold them, and the fault
record cleared. It stands for the host's supplying of an image (log 5). -/
def State.withFetchWord (s : State) (nbits w : Nat) : State :=
  let bytes := tableBytes nbits w
  { s with img := s.img.place s.cur (bytes.take (insnLen (bytes.headD 0))), fault := none }

end Sys2Proof.Machine
end

