-- ==== Sys2Proof/Machine/Operands.lean ====
section
/-!
DEFINITION. The combinational stage at its ports (10_state.md R26, 30_encoding.md R62,
41_length_operands.md R79 to R86): class code, fields, direction, pair, length, operands, truncation.
-/
namespace Sys2Proof.Machine

/-- The class code (R62). -/
def classCode : Class → BitVec 3
  | .nop => 0b000
  | .mov _ _ => 0b001
  | .mvi _ => 0b010
  | .ind _ _ => 0b011
  | .direct _ => 0b100
  | .unk => 0b111

/-- The direction bit: 0 Store, 1 Load; 0 for a class without direction (R26, R62). -/
def dirBit : Class → BitVec 1
  | .ind .Load _ => 1
  | .direct .Load => 1
  | .ind .Store _ => 0
  | .direct .Store => 0
  | .nop | .mov _ _ | .mvi _ | .unk => 0

/-- The pair bit: 0 B, 1 D; 0 for every class but the indirect (R26, R62). -/
def pairBit : Class → BitVec 1
  | .ind _ .D => 1
  | .ind _ .B => 0
  | .nop | .mov _ _ | .mvi _ | .direct _ | .unk => 0

/-- The input ports of the stage (R26). -/
structure StageIn where
  op : Byte
  b1 : Byte
  b2 : Byte
  avail : BitVec 2
  deriving DecidableEq, Repr

/-- The output ports of the stage (R26). -/
structure StageOut where
  cls : BitVec 3
  dst : RegField
  src : RegField
  dirn : BitVec 1
  pair : BitVec 1
  len : BitVec 2
  imm8 : Byte
  addr16 : Addr16
  trunc : BitVec 1
  deriving DecidableEq, Repr

/-- The truncation output: 1 when `avail < len` (R84). -/
def truncBit (op : Byte) (avail : BitVec 2) : BitVec 1 :=
  if avail.toNat < insnLen op then 1 else 0

/-- The literal on the `imm8` port where it carries an operand (R52, R86), else a free value (log 12). -/
def immPort (i : StageIn) : Byte :=
  match classify i.op with
  | .mvi _ =>
    if truncBit i.op i.avail = 0 then i.b1 else Config.freeImm8 i.op i.b1 i.b2 i.avail
  | .nop | .mov _ _ | .ind _ _ | .direct _ | .unk => Config.freeImm8 i.op i.b1 i.b2 i.avail

/-- The address on the `addr16` port where it carries an operand (R53, R86), else a free value (log 12). -/
def addrPort (i : StageIn) : Addr16 :=
  match classify i.op with
  | .direct _ =>
    if truncBit i.op i.avail = 0 then assembleAddr i.b2 i.b1
    else Config.freeAddr16 i.op i.b1 i.b2 i.avail
  | .nop | .mov _ _ | .mvi _ | .ind _ _ | .unk => Config.freeAddr16 i.op i.b1 i.b2 i.avail

/-- The stage: every output is a function of the inputs of the same evaluation (R11, R26). -/
def stage (i : StageIn) : StageOut :=
  { cls := classCode (classify i.op)
    dst := dstField i.op
    src := srcField i.op
    dirn := dirBit (classify i.op)
    pair := pairBit (classify i.op)
    len := BitVec.ofNat 2 (insnLen i.op)
    imm8 := immPort i
    addr16 := addrPort i
    trunc := truncBit i.op i.avail }

/-- What the wrapper drives the stage with in a state (R26): the bytes the image has at the cursor.
`u0`, `u1`, `u2` are what the ports carry where the image has no byte there: any value (R86, 93 A8). -/
def State.stageIn (s : State) (u0 u1 u2 : Byte) : StageIn :=
  { op := (s.img.read s.cur).getD u0
    b1 := (s.img.read (s.cur + 1)).getD u1
    b2 := (s.img.read (s.cur + 2)).getD u2
    avail := BitVec.ofNat 2 s.avail }

/-- The pair a pair bit names (R26). -/
def pairOfBit (b : BitVec 1) : Pair := if b = 0 then .B else .D

/-- The decoded instruction the outputs of the stage spell (R50 to R53, R62, R85); none for the class
codes 5 and 6, which are never driven. -/
def StageOut.decoded (o : StageOut) : Option Decoded :=
  match o.cls.toNat with
  | 0 => some .NOP
  | 1 => some (.MOV (Reg.ofField o.dst) (Reg.ofField o.src))
  | 2 => some (.MVI (Reg.ofField o.dst) o.imm8)
  | 3 => some (if o.dirn = 0 then .STAX (pairOfBit o.pair) else .LDAX (pairOfBit o.pair))
  | 4 => some (if o.dirn = 0 then .STA o.addr16 else .LDA o.addr16)
  | 7 => some .UNKNOWN
  | _ => none

end Sys2Proof.Machine
end

