-- ==== Sys2Proof/Machine/Pass.lean ====
section
/-!
DEFINITION. The world around the step: `start`, the other host events, the line output, a whole pass
(45_decode_loop.md R96), what the host has received, and several instances side by side (R46).
-/
namespace Sys2Proof.Machine

/-! ### Starting a pass -/

/-- The state at the start of a pass over the byte sequence `img` (R28, R127). -/
def passStart (img : List Byte) : State := { State.reset with img := Memory.ofBytes img }

/-- `start` (R27, R127): the reset state of the new pass, whatever the old pass was doing (R129); an
image longer than `MAX_IMAGE_LEN` is refused and no pass starts (R19). -/
def start (cfg : Config) (img : List Byte) (_old : State) : Host.Outcome State Fault Refusal :=
  if img.length ≤ cfg.maxImageLen then .next (passStart img) else .refused .imageTooLong

/-- The host puts other bytes in place of the image. During a pass that has no meaning (R42, 93 A7);
in a terminal phase the block no longer reads the image (R12), so its state stays (log 15). -/
def changeImage (_img : List Byte) (s : State) : Host.Outcome State Fault Refusal :=
  match s.phase with
  | .run => .refused .imageChangedDuringPass
  | .done | .failed _ => .next s

/-- What can happen next: the wrapper steps, or the host acts. -/
inductive Event where
  | step
  | start (img : List Byte)
  | changeImage (img : List Byte)
  deriving DecidableEq, Repr

/-- The machine under one event. -/
def react (cfg : Config) (e : Event) (s : State) : Host.Outcome State Fault Refusal :=
  match e with
  | .step => step s
  | .start img => start cfg img s
  | .changeImage img => changeImage img s

/-! ### A pass -/

/-- At most `fuel` steps, stopping in a terminal phase (R96's loop). -/
def loop : Nat → State → State
  | 0, s => s
  | fuel + 1, s =>
    match step s with
    | .next t => loop fuel t
    | .fault _ => s
    | .refused _ => s

/-- `run(img)` (R96): the emitted lines and the outcome, with fuel `n + 1`. -/
def run (img : List Byte) : List Line × Option PassOutcome :=
  let t := loop (img.length + 1) (passStart img)
  (t.lines, t.outcome)

/-- The line-out port of the step taken in `s` (R27, R92): the lines the step appends, one or none. -/
def lineOut (s : State) : List Line :=
  match step s with
  | .next t => t.lines.drop s.lines.length
  | .fault _ => []
  | .refused _ => []

/-! ### The step through the ports of the stage -/

/-- A build that looks at the two bytes after the opcode before it knows the class (R131): the step
computed from the stage's output ports alone. A class code that is never driven is refused (93 A10). -/
def stepFromOutputs (o : StageOut) (s : State) : Host.Outcome State Fault Refusal :=
  if o.trunc = 1 then .next s.takeTruncated
  else
    match o.decoded with
    | some d => .next ((s.emit d).advance o.len.toNat)
    | none => .refused .unusedClassCode

/-- The step with the stage driven from the state; `u0`, `u1`, `u2` stand on the byte ports where the
image has no byte. -/
def stepViaPorts (u0 u1 u2 : Byte) (s : State) : Host.Outcome State Fault Refusal :=
  match s.phase with
  | .done => .fault .passDone
  | .failed _ => .fault .passFailed
  | .run => stepFromOutputs (stage (s.stageIn u0 u1 u2)) s

/-! ### The host's side -/

/-- What the host holds beside the machine: the lines it has taken and the outcomes reported to it. The
host accepts every line (R27, R130); neither list is ever shortened (R119, R129). -/
structure Session where
  received : List Line
  reports : List PassOutcome
  machine : State
  deriving DecidableEq, Repr

/-- One event of a session. A pass that becomes terminal reports once; an abandoned pass reports
nothing (R129); a pass over the empty image is Done at its start (R94). -/
def Session.react (cfg : Config) (e : Event) (h : Session) : Host.Outcome Session Fault Refusal :=
  match Machine.react cfg e h.machine with
  | .fault f => .fault f
  | .refused r => .refused r
  | .next t =>
    match e with
    | .step => .next ⟨h.received ++ lineOut h.machine, h.reports ++ t.outcome.toList, t⟩
    | .start _ => .next ⟨h.received, h.reports ++ t.outcome.toList, t⟩
    | .changeImage _ => .next h

/-! ### Several instances -/

/-- One step of instance `k` of several independent passes (R46, R126): the others do not move. -/
def stepInstance (k : Nat) (ss : List State) : Host.Outcome (List State) Fault Refusal :=
  match ss[k]? with
  | none => .next ss
  | some s =>
    match step s with
    | .next t => .next (ss.set k t)
    | .fault f => .fault f
    | .refused r => .refused r

end Sys2Proof.Machine
end

