-- ==== Sys2Proof/Machine/Render.lean ====
section
/-!
DEFINITION. The text of a decoded line (46_output_format.md R102 to R114). Lines stay structured in the
state; the text is derived from them (10_state.md R25).
-/
namespace Sys2Proof.Machine

/-- One base-16 digit, lower case (R103, D7). -/
def hexDigit (d : Nat) : Char := ("0123456789abcdef".toList).getD d '0'

/-- The base-16 digits of `v`, most significant first, by structural recursion on `fuel`. -/
def hexDigitsUpTo : Nat → Nat → List Char
  | 0, _ => []
  | fuel + 1, v =>
    if v < 16 then [hexDigit v] else hexDigitsUpTo fuel (v / 16) ++ [hexDigit (v % 16)]

/-- The base-16 digits of `v` (R103). -/
def hexDigits (v : Nat) : List Char := hexDigitsUpTo (v + 1) v

/-- `hex(v, w)` (R103): `0x`, zeros up to `w` digits, the digits. -/
def hex (v w : Nat) : String :=
  "0x" ++ String.ofList (List.replicate (w - (hexDigits v).length) '0' ++ hexDigits v)

/-- The text of a register identifier (R105). -/
def regText : Reg → String
  | .B => "B"
  | .C => "C"
  | .D => "D"
  | .E => "E"
  | .H => "H"
  | .L => "L"
  | .M => "Memory"
  | .A => "A"

/-- The text of a pair (R106). -/
def pairText : Pair → String
  | .B => "B"
  | .D => "D"

/-- `mnemonic(instr)` (R107 to R114). -/
def mnemonic (cfg : Config) : Decoded → String
  | .NOP => "NOP"
  | .MOV d s => "MOV " ++ regText d ++ " " ++ regText s
  | .MVI d imm => "MVI " ++ regText d ++ " " ++ hex imm.toNat cfg.immHexWidth
  | .STAX p => "STAX " ++ pairText p
  | .LDAX p => "LDAX " ++ pairText p
  | .STA a => "STA " ++ hex a.toNat 4
  | .LDA a => "LDA " ++ hex a.toNat 4
  | .UNKNOWN => "UNKNOWN"

/-- `render(addr, instr)` (R102): address, TAB (0x09), mnemonic, LF (0x0A; D10). -/
def render (cfg : Config) (l : Line) : String :=
  hex l.addr cfg.addrHexWidth ++ "\t" ++ mnemonic cfg l.instr ++ "\n"

/-- The output text of a pass: its lines rendered in emission order (R102). -/
def outputText (cfg : Config) (lines : List Line) : String := String.join (lines.map (render cfg))

end Sys2Proof.Machine
end

