-- ==== Sys2Proof/Safety.lean ====
section
/-!
DEFINITION. What claims speak of: the invariants of a pass, reachability, and the disassembly of a byte
sequence written without a machine.
-/
namespace Sys2Proof.Machine

/-- The length of the instruction a line carries (R82). -/
def Decoded.len : Decoded → Nat
  | .MVI _ _ => 2
  | .STA _ | .LDA _ => 3
  | .NOP | .MOV _ _ | .STAX _ | .LDAX _ | .UNKNOWN => 1

/-- What the line of an instruction shows (R85): the byte of `unknown` is dropped (R78). -/
def Decoded.ofInstr : Instr → Decoded
  | .nop => .NOP
  | .mov d s => .MOV d s
  | .mvi d imm => .MVI d imm
  | .staxB => .STAX .B
  | .staxD => .STAX .D
  | .ldaxB => .LDAX .B
  | .ldaxD => .LDAX .D
  | .sta a => .STA a
  | .lda a => .LDA a
  | .unknown _ => .UNKNOWN

/-- The lines follow one another without gap or overlap from display address `a` to `e` (R98): each
line's address is `a` plus 8 times the lengths of the lines before it. -/
def linesTile (a : Nat) : List Line → Nat → Prop
  | [], e => a = e
  | l :: rest, e => l.addr = a ∧ linesTile (a + 8 * l.instr.len) rest e

/-- The state invariant: canonical image, cursor within the image (R13), address counter 8 times the
cursor (R18), a fault record only at the current address (R118), lines tiling the consumed bytes
(R98, R99). -/
structure State.Inv (s : State) : Prop where
  imgWf : s.img.wf = true
  curLe : s.cur ≤ s.img.len
  acEq : s.ac = 8 * s.cur
  faultAt : ∀ a, s.fault = some a → a = s.ac ∧ decodeAt s.img s.cur = .truncated
  linesTile : linesTile 0 s.lines s.ac

/-- Every line was decoded from the image bytes at its address (R89, R92). -/
def State.LinesFromImage (s : State) : Prop :=
  ∀ l ∈ s.lines, ∃ k i L, l.addr = 8 * k ∧ decodeAt s.img k = .ok i L ∧ l.instr = Decoded.ofInstr i

/-- `t` is reached from `s` by steps. -/
inductive Reaches : State → State → Prop where
  | refl (s : State) : Reaches s s
  | tail {s t u : State} (h : Reaches s t) (hs : step t = .next u) : Reaches s u

/-- The value of base-16 digits read most significant first, by their places in `0123456789abcdef`
(R103). -/
def hexValue (ds : List Char) : Nat :=
  ds.foldl (fun v c => 16 * v + ("0123456789abcdef".toList).idxOf c) 0

/-- The disassembly of a byte sequence, from display address `a` on, by recursion on the bytes: the
reference the pass is compared with (R87, R89, R96), written without cursor, fuel or state. -/
def disassemble (a : Nat) : List Byte → List Line × PassOutcome
  | [] => ([], .done)
  | op :: rest =>
    match classify op with
    | .nop => put ⟨a, .NOP⟩ (disassemble (a + 8) rest)
    | .mov d s => put ⟨a, .MOV d s⟩ (disassemble (a + 8) rest)
    | .ind .Store p => put ⟨a, .STAX p⟩ (disassemble (a + 8) rest)
    | .ind .Load p => put ⟨a, .LDAX p⟩ (disassemble (a + 8) rest)
    | .unk => put ⟨a, .UNKNOWN⟩ (disassemble (a + 8) rest)
    | .mvi d =>
      match rest with
      | imm :: rest => put ⟨a, .MVI d imm⟩ (disassemble (a + 16) rest)
      | [] => ([], .failed a)
    | .direct dir =>
      match rest with
      | lo :: hi :: rest => put ⟨a, direct dir (assembleAddr hi lo)⟩ (disassemble (a + 24) rest)
      | _ => ([], .failed a)
where
  /-- The line before the lines of the rest. -/
  put (l : Line) (r : List Line × PassOutcome) : List Line × PassOutcome := (l :: r.1, r.2)
  /-- The direct instruction of a direction. -/
  direct : Dir → Addr16 → Decoded
    | .Store, addr => .STA addr
    | .Load, addr => .LDA addr

end Sys2Proof.Machine
end

