-- ==== Sys2Proof/Certificates/Slice0/Obligations.lean ====
section
/-!
DEFINITION. The statements for the provers. Each docstring names the rules it speaks of; a statement that
rests on a decision or a derivation of the spec, or on an entry of the assumption log, says so.
-/
open Sys2Proof Sys2Proof.Machine

/-! ### Encoding -/

/-- Bytes written out bit by bit from R48 and R54 to R57 decode to the instruction they stand for. The
six exact byte values are the spec's decision D2 (log 7). -/
def Obligations.WrittenOutBytesDecode : Prop :=
  decode [0b00000000] = .ok .nop 1 ∧
  decode [0b01000111] = .ok (.mov .B .A) 1 ∧
  decode [0b01110110] = .ok (.mov .M .M) 1 ∧
  decode [0b00111110, 0b01000010] = .ok (.mvi .A 0x42) 2 ∧
  decode [0b00000010] = .ok .staxB 1 ∧
  decode [0b00010010] = .ok .staxD 1 ∧
  decode [0b00001010] = .ok .ldaxB 1 ∧
  decode [0b00011010] = .ok .ldaxD 1 ∧
  decode [0b00110010, 0b11101111, 0b10111110] = .ok (.sta 0xBEEF) 3 ∧
  decode [0b00111010, 0b00110100, 0b00010010] = .ok (.lda 0x1234) 3 ∧
  decode [0b11000011] = .ok (.unknown 0xC3) 1 ∧
  decode [0b00111010, 0b00110100] = .truncated

/-- Decoding the bytes of a well-formed instruction gives it back, whatever bytes follow. -/
def Obligations.DecodeOfEncode : Prop :=
  ∀ (i : Instr) (rest : List Byte), i.wf = true →
    decode (encode i ++ rest) = .ok i (encode i).length

/-- Every answer of the decoder is a well-formed instruction whose encoding is exactly the bytes
consumed: no byte sequence is read as an instruction it does not encode. -/
def Obligations.EncodeOfDecode : Prop :=
  ∀ (bs : List Byte) (i : Instr) (L : Nat), decode bs = .ok i L →
    i.wf = true ∧ L = (encode i).length ∧ bs.take L = encode i

/-- R55, R56, R59, R60 (enumerated or derived there; R57 is decision D2): the register-move set is 0x40
to 0x7F with 64 values, the move-immediate set is its eight values, the unrecognised set is R60's list of
177 values, and no byte is in two recognised sets. -/
def Obligations.OpcodeSetsPartitionTheBytes : Prop :=
  (∀ op : Byte, (∃ d s, classify op = .mov d s) ↔ 0x40 ≤ op.toNat ∧ op.toNat ≤ 0x7F) ∧
  (∀ op : Byte, (∃ d, classify op = .mvi d) ↔
    op ∈ [0x06#8, 0x0E#8, 0x16#8, 0x1E#8, 0x26#8, 0x2E#8, 0x36#8, 0x3E#8]) ∧
  (∀ op : Byte, classify op = .unk ↔ unrecognised op = true) ∧
  ((List.range 256).filter fun k => decide (topField (BitVec.ofNat 8 k) = 0b01)).length = 64 ∧
  ((List.range 256).filter fun k => unrecognised (BitVec.ofNat 8 k)).length = 177 ∧
  ∀ op : Byte,
    [decide (op = 0x00),
      decide (op ∈ [0x02#8, 0x12#8, 0x0A#8, 0x1A#8, 0x32#8, 0x3A#8]),
      decide (topField op = 0b01),
      decide (topField op = 0b00 ∧ srcField op = 0b110),
      unrecognised op].count true = 1

/-! ### One statement per row of the opcode table: what decodes to it, its ports, that it completes -/

/-- R69 whole: 0x00 and no other byte is NOP, its ports, its line, its length; as an operand byte 0x00 is
consumed and not classified. -/
def Obligations.NopRule : Prop :=
  (∀ op : Byte, classify op = .nop ↔ op = 0x00) ∧
  (∀ op ∈ [0x08#8, 0x10#8, 0x18#8, 0x20#8, 0x28#8, 0x30#8, 0x38#8], classify op = .unk) ∧
  (∀ rest : List Byte, decode (0x00 :: rest) = .ok .nop 1) ∧
  (∀ (b1 b2 : Byte) (av : BitVec 2), 1 ≤ av.toNat →
    let o := stage ⟨0x00, b1, b2, av⟩
    o.cls = 0b000 ∧ o.dirn = 0 ∧ o.pair = 0 ∧ o.len = 1 ∧ o.trunc = 0) ∧
  (∀ (d : Reg) (rest : List Byte),
    decode ((0b00#2 ++ d.field ++ 0b110#3) :: 0x00 :: rest) = .ok (.mvi d 0x00) 2) ∧
  (∀ (op : Byte) (dir : Dir) (b : Byte) (rest : List Byte), classify op = .direct dir →
    decode (op :: 0x00 :: b :: rest) =
      .ok (match dir with | .Store => .sta (assembleAddr b 0x00) | .Load => .lda (assembleAddr b 0x00)) 3 ∧
    decode (op :: b :: 0x00 :: rest) =
      .ok (match dir with | .Store => .sta (assembleAddr 0x00 b) | .Load => .lda (assembleAddr 0x00 b)) 3) ∧
  (∀ s : State, s.fault = none → s.cur < s.img.len →
    exec .nop s =
      .next { s with cur := s.cur + 1, ac := s.ac + 8, lines := s.lines ++ [⟨s.ac, .NOP⟩] }) ∧
  run [0x00] = ([⟨0, .NOP⟩], some .done)

/-- R70 (0x76 by decision D22): MOV, all 64 encodings, Memory as either operand or both. -/
def Obligations.MovRule : Prop :=
  (∀ (op : Byte) (rest : List Byte), topField op = 0b01 →
    classify op = .mov (Reg.ofField (dstField op)) (Reg.ofField (srcField op)) ∧
    decode (op :: rest) = .ok (.mov (Reg.ofField (dstField op)) (Reg.ofField (srcField op))) 1) ∧
  (∀ (op b1 b2 : Byte) (av : BitVec 2), topField op = 0b01 → 1 ≤ av.toNat →
    let o := stage ⟨op, b1, b2, av⟩
    o.cls = 0b001 ∧ o.dirn = 0 ∧ o.pair = 0 ∧ o.len = 1 ∧ o.trunc = 0) ∧
  (∀ (d r : Reg) (s : State), s.fault = none → s.cur < s.img.len →
    exec (.mov d r) s =
      .next { s with cur := s.cur + 1, ac := s.ac + 8, lines := s.lines ++ [⟨s.ac, .MOV d r⟩] }) ∧
  decode [0x47] = .ok (.mov .B .A) 1 ∧ decode [0x76] = .ok (.mov .M .M) 1

/-- R71: MVI, its eight encodings, its literal any byte, its ports, its line, and its truncation when the
opcode is the image's last byte. What truncation does is the spec's decisions D4 and D5 (R117; log 9), the
`trunc` port its decisions D1 and D4 (R84), the meaning of the `imm8` port its decision D19 (R86). -/
def Obligations.MviRule : Prop :=
  (∀ op : Byte, topField op = 0b00 ∧ srcField op = 0b110 →
    classify op = .mvi (Reg.ofField (dstField op)) ∧ insnLen op = 2) ∧
  (∀ op : Byte, topField op = 0b00 ∧ srcField op = 0b110 ↔
    op ∈ [0x06#8, 0x0E#8, 0x16#8, 0x1E#8, 0x26#8, 0x2E#8, 0x36#8, 0x3E#8]) ∧
  ([0x06#8, 0x0E#8, 0x16#8, 0x1E#8, 0x26#8, 0x2E#8, 0x36#8, 0x3E#8].map fun op =>
    Reg.ofField (dstField op)) = [.B, .C, .D, .E, .H, .L, .M, .A] ∧
  (∀ (op imm : Byte) (rest : List Byte), topField op = 0b00 ∧ srcField op = 0b110 →
    decode (op :: imm :: rest) = .ok (.mvi (Reg.ofField (dstField op)) imm) 2) ∧
  (∀ (op b1 b2 : Byte) (av : BitVec 2), topField op = 0b00 ∧ srcField op = 0b110 →
    let o := stage ⟨op, b1, b2, av⟩
    o.cls = 0b010 ∧ o.src = 6 ∧ o.dirn = 0 ∧ o.pair = 0 ∧ o.len = 2 ∧
      (o.trunc = 1 ↔ av.toNat < 2) ∧ (2 ≤ av.toNat → o.imm8 = b1)) ∧
  (∀ (d : Reg) (imm : Byte) (s : State), s.fault = none → s.cur + 2 ≤ s.img.len →
    exec (.mvi d imm) s =
      .next { s with cur := s.cur + 2, ac := s.ac + 16, lines := s.lines ++ [⟨s.ac, .MVI d imm⟩] }) ∧
  (∀ (s : State) (op : Byte), s.fault = none → s.img.read s.cur = some op →
    topField op = 0b00 ∧ srcField op = 0b110 → s.cur + 1 = s.img.len →
    step s = .next { s with fault := some s.ac }) ∧
  run [0x3E, 0x42] = ([⟨0, .MVI .A 0x42⟩], some .done)

/-- R72: STAX B. The byte value 0x02 is the spec's decision D2 (log 7). -/
def Obligations.StaxBRule : Prop :=
  (∀ op : Byte, classify op = .ind .Store .B ↔ op = 0x02) ∧
  (∀ rest : List Byte, decode (0x02 :: rest) = .ok .staxB 1) ∧
  (∀ (b1 b2 : Byte) (av : BitVec 2), 1 ≤ av.toNat →
    let o := stage ⟨0x02, b1, b2, av⟩
    o.cls = 0b011 ∧ o.dirn = 0 ∧ o.pair = 0 ∧ o.len = 1 ∧ o.trunc = 0) ∧
  (∀ s : State, s.fault = none → s.cur < s.img.len →
    exec .staxB s =
      .next { s with cur := s.cur + 1, ac := s.ac + 8, lines := s.lines ++ [⟨s.ac, .STAX .B⟩] }) ∧
  run [0x02] = ([⟨0, .STAX .B⟩], some .done)

/-- R73: STAX D. The byte value 0x12 is the spec's decision D2 (log 7). -/
def Obligations.StaxDRule : Prop :=
  (∀ op : Byte, classify op = .ind .Store .D ↔ op = 0x12) ∧
  (∀ rest : List Byte, decode (0x12 :: rest) = .ok .staxD 1) ∧
  (∀ (b1 b2 : Byte) (av : BitVec 2), 1 ≤ av.toNat →
    let o := stage ⟨0x12, b1, b2, av⟩
    o.cls = 0b011 ∧ o.dirn = 0 ∧ o.pair = 1 ∧ o.len = 1 ∧ o.trunc = 0) ∧
  (∀ s : State, s.fault = none → s.cur < s.img.len →
    exec .staxD s =
      .next { s with cur := s.cur + 1, ac := s.ac + 8, lines := s.lines ++ [⟨s.ac, .STAX .D⟩] }) ∧
  run [0x12] = ([⟨0, .STAX .D⟩], some .done)

/-- R74: LDAX B. The byte value 0x0A is the spec's decision D2 (log 7). -/
def Obligations.LdaxBRule : Prop :=
  (∀ op : Byte, classify op = .ind .Load .B ↔ op = 0x0A) ∧
  (∀ rest : List Byte, decode (0x0A :: rest) = .ok .ldaxB 1) ∧
  (∀ (b1 b2 : Byte) (av : BitVec 2), 1 ≤ av.toNat →
    let o := stage ⟨0x0A, b1, b2, av⟩
    o.cls = 0b011 ∧ o.dirn = 1 ∧ o.pair = 0 ∧ o.len = 1 ∧ o.trunc = 0) ∧
  (∀ s : State, s.fault = none → s.cur < s.img.len →
    exec .ldaxB s =
      .next { s with cur := s.cur + 1, ac := s.ac + 8, lines := s.lines ++ [⟨s.ac, .LDAX .B⟩] }) ∧
  run [0x0A] = ([⟨0, .LDAX .B⟩], some .done)

/-- R75: LDAX D. The byte value 0x1A is the spec's decision D2 (log 7). -/
def Obligations.LdaxDRule : Prop :=
  (∀ op : Byte, classify op = .ind .Load .D ↔ op = 0x1A) ∧
  (∀ rest : List Byte, decode (0x1A :: rest) = .ok .ldaxD 1) ∧
  (∀ (b1 b2 : Byte) (av : BitVec 2), 1 ≤ av.toNat →
    let o := stage ⟨0x1A, b1, b2, av⟩
    o.cls = 0b011 ∧ o.dirn = 1 ∧ o.pair = 1 ∧ o.len = 1 ∧ o.trunc = 0) ∧
  (∀ s : State, s.fault = none → s.cur < s.img.len →
    exec .ldaxD s =
      .next { s with cur := s.cur + 1, ac := s.ac + 8, lines := s.lines ++ [⟨s.ac, .LDAX .D⟩] }) ∧
  run [0x1A] = ([⟨0, .LDAX .D⟩], some .done)

/-- R76: STA a16, its address little-endian (R32, R53), its truncation with none or one byte after the
opcode. The byte value 0x32 is the spec's decision D2 (log 7). -/
def Obligations.StaRule : Prop :=
  (∀ op : Byte, classify op = .direct .Store ↔ op = 0x32) ∧
  (∀ (lo hi : Byte) (rest : List Byte), ∃ a : Addr16,
    decode (0x32 :: lo :: hi :: rest) = .ok (.sta a) 3 ∧ a.toNat = 256 * hi.toNat + lo.toNat) ∧
  (∀ (b1 b2 : Byte) (av : BitVec 2),
    let o := stage ⟨0x32, b1, b2, av⟩
    o.cls = 0b100 ∧ o.dirn = 0 ∧ o.pair = 0 ∧ o.len = 3 ∧
      (o.trunc = 1 ↔ av.toNat < 3) ∧ (av = 3 → o.addr16 = assembleAddr b2 b1)) ∧
  (∀ (a : Addr16) (s : State), s.fault = none → s.cur + 3 ≤ s.img.len →
    exec (.sta a) s =
      .next { s with cur := s.cur + 3, ac := s.ac + 24, lines := s.lines ++ [⟨s.ac, .STA a⟩] }) ∧
  (∀ s : State, s.fault = none → s.img.read s.cur = some 0x32 → s.img.len ≤ s.cur + 2 →
    step s = .next { s with fault := some s.ac }) ∧
  run [0x32, 0xEF, 0xBE] = ([⟨0, .STA 0xBEEF⟩], some .done)

/-- R77: LDA a16, as STA. The byte value 0x3A is the spec's decision D2 (log 7). -/
def Obligations.LdaRule : Prop :=
  (∀ op : Byte, classify op = .direct .Load ↔ op = 0x3A) ∧
  (∀ (lo hi : Byte) (rest : List Byte), ∃ a : Addr16,
    decode (0x3A :: lo :: hi :: rest) = .ok (.lda a) 3 ∧ a.toNat = 256 * hi.toNat + lo.toNat) ∧
  (∀ (b1 b2 : Byte) (av : BitVec 2),
    let o := stage ⟨0x3A, b1, b2, av⟩
    o.cls = 0b100 ∧ o.dirn = 1 ∧ o.pair = 0 ∧ o.len = 3 ∧
      (o.trunc = 1 ↔ av.toNat < 3) ∧ (av = 3 → o.addr16 = assembleAddr b2 b1)) ∧
  (∀ (a : Addr16) (s : State), s.fault = none → s.cur + 3 ≤ s.img.len →
    exec (.lda a) s =
      .next { s with cur := s.cur + 3, ac := s.ac + 24, lines := s.lines ++ [⟨s.ac, .LDA a⟩] }) ∧
  (∀ s : State, s.fault = none → s.img.read s.cur = some 0x3A → s.img.len ≤ s.cur + 2 →
    step s = .next { s with fault := some s.ac }) ∧
  run [0x3A, 0x34, 0x12] = ([⟨0, .LDA 0x1234⟩], some .done)

/-- R78 (one byte also for 8080 multi-byte opcodes: decision D23), R121: an unrecognised byte is never an
error, takes one byte, and the bytes after it are decoded on their own. -/
def Obligations.UnknownRule : Prop :=
  (∀ (op : Byte) (rest : List Byte), unrecognised op = true →
    classify op = .unk ∧ decode (op :: rest) = .ok (.unknown op) 1) ∧
  (∀ (op b1 b2 : Byte) (av : BitVec 2), unrecognised op = true → 1 ≤ av.toNat →
    let o := stage ⟨op, b1, b2, av⟩
    o.cls = 0b111 ∧ o.dirn = 0 ∧ o.pair = 0 ∧ o.len = 1 ∧ o.trunc = 0) ∧
  (∀ (op : Byte) (s : State), s.fault = none → s.cur < s.img.len →
    exec (.unknown op) s =
      .next { s with cur := s.cur + 1, ac := s.ac + 8, lines := s.lines ++ [⟨s.ac, .UNKNOWN⟩] }) ∧
  (∀ (op : Byte) (s : State), s.fault = none → s.img.read s.cur = some op →
    unrecognised op = true →
    step s =
      .next { s with cur := s.cur + 1, ac := s.ac + 8, lines := s.lines ++ [⟨s.ac, .UNKNOWN⟩] }) ∧
  run [0xFF] = ([⟨0, .UNKNOWN⟩], some .done) ∧
  run [0x01, 0x00, 0x00] = ([⟨0, .UNKNOWN⟩, ⟨8, .NOP⟩, ⟨16, .NOP⟩], some .done)

/-! ### Fields, lengths, ports -/

/-- R22 and R105: the eight identifiers in their fixed order, each named by exactly one field value, and
their texts. -/
def Obligations.RegisterIdentifiersInOrder : Prop :=
  ([0, 1, 2, 3, 4, 5, 6, 7].map fun k => Reg.ofField (BitVec.ofNat 3 k)) =
    [.B, .C, .D, .E, .H, .L, .M, .A] ∧
  (∀ r : Reg, ∃ k : RegField, Reg.ofField k = r ∧ ∀ k' : RegField, Reg.ofField k' = r → k' = k) ∧
  ([0, 1, 2, 3, 4, 5, 6, 7].map fun k => regText (Reg.ofField (BitVec.ofNat 3 k))) =
    ["B", "C", "D", "E", "H", "L", "Memory", "A"]

/-- R50 and R79: the slicer drives `op[5:3]` and `op[2:0]` whatever the class, as the document's shifts
and masks give them; MOV takes both as register operands, MVI the first; every other instruction has no
register operand; field value 6 is the Memory placeholder like any other value. -/
def Obligations.SlicerAndRegisterOperands : Prop :=
  (∀ i : StageIn,
    (stage i).dst.toNat = (i.op >>> 3 &&& 0b111#8).toNat ∧
    (stage i).src.toNat = (i.op &&& 0b111#8).toNat) ∧
  (∀ (op : Byte) (rest : List Byte) (d s : Reg) (L : Nat), decode (op :: rest) = .ok (.mov d s) L →
    d = Reg.ofField (dstField op) ∧ s = Reg.ofField (srcField op)) ∧
  (∀ (op : Byte) (rest : List Byte) (d : Reg) (imm : Byte) (L : Nat),
    decode (op :: rest) = .ok (.mvi d imm) L → d = Reg.ofField (dstField op)) ∧
  (∀ (op : Byte) (rest : List Byte) (i : Instr) (L : Nat), decode (op :: rest) = .ok i L →
    (∃ d s, i = .mov d s) ∨ (∃ d imm, i = .mvi d imm) ∨
      i ∈ [.nop, .staxB, .staxD, .ldaxB, .ldaxD, .unknown op] ∨ ∃ a, i = .sta a ∨ i = .lda a) ∧
  Reg.ofField 6 = .M

/-- R81 (and R80, R82 with their gate forms and R58's bits, derived there from D2's values): the length
is 3 exactly for the two direct bytes, 2 exactly for move-immediate, else 1; extra is the length less 1;
on the exact-match bytes `op[3]` is the direction and on the indirect ones `op[4]` is the pair. -/
def Obligations.LengthAndGateForms : Prop :=
  (∀ op : Byte, extraBytes op = insnLen op - 1 ∧ extraBytes op ∈ [0, 1, 2]) ∧
  (∀ op : Byte, insnLen op =
    if op = 0x32 ∨ op = 0x3A then 3
    else if topField op = 0b00 ∧ srcField op = 0b110 then 2 else 1) ∧
  (∀ op ∈ [0x02#8, 0x12#8, 0x0A#8, 0x1A#8, 0x32#8, 0x3A#8],
    dirBit (classify op) = op.extractLsb' 3 1 ∧ op.extractLsb' 0 3 = 0b010 ∧
      op.extractLsb' 6 2 = 0b00) ∧
  (∀ op ∈ [0x02#8, 0x12#8, 0x0A#8, 0x1A#8],
    pairBit (classify op) = op.extractLsb' 4 1 ∧ op.extractLsb' 5 1 = 0) ∧
  (∀ op ∈ [0x32#8, 0x3A#8], op.extractLsb' 4 2 = 0b11)

/-- R62 (decision D20), R88 (derived): the class codes, none of them 5 or 6; direction and pair are 0
where they mean nothing; `cls`, `dst`, `src`, `dirn`, `pair`, `len` depend on `op` alone and `trunc` on
`op` and `avail` alone. -/
def Obligations.ClassCodesAndPortDependence : Prop :=
  (∀ i : StageIn, (stage i).cls ≠ 0b101 ∧ (stage i).cls ≠ 0b110) ∧
  (∀ i : StageIn, ((stage i).cls = 0b000 ↔ classify i.op = .nop) ∧
    ((stage i).cls = 0b001 ↔ ∃ d s, classify i.op = .mov d s) ∧
    ((stage i).cls = 0b010 ↔ ∃ d, classify i.op = .mvi d) ∧
    ((stage i).cls = 0b011 ↔ ∃ dir p, classify i.op = .ind dir p) ∧
    ((stage i).cls = 0b100 ↔ ∃ dir, classify i.op = .direct dir) ∧
    ((stage i).cls = 0b111 ↔ classify i.op = .unk)) ∧
  (∀ i : StageIn, (stage i).cls ≠ 0b011 → (stage i).cls ≠ 0b100 → (stage i).dirn = 0) ∧
  (∀ i : StageIn, (stage i).cls ≠ 0b011 → (stage i).pair = 0) ∧
  (∀ i j : StageIn, i.op = j.op →
    (stage i).cls = (stage j).cls ∧ (stage i).dst = (stage j).dst ∧ (stage i).src = (stage j).src ∧
    (stage i).dirn = (stage j).dirn ∧ (stage i).pair = (stage j).pair ∧
    (stage i).len = (stage j).len) ∧
  (∀ i j : StageIn, i.op = j.op → i.avail = j.avail → (stage i).trunc = (stage j).trunc)

/-- R88 (derived): two images that agree on the bytes an instruction reads give the same `decodeAt`
result; where the instruction is truncated in both, agreement on the opcode is enough. -/
def Obligations.DecodeReadsItsOwnBytesOnly : Prop :=
  ∀ (m m' : Memory) (cur cur' : Nat) (op : Byte),
    m.read cur = some op → m'.read cur' = some op →
    (m.len - cur < insnLen op ↔ m'.len - cur' < insnLen op) →
    (insnLen op ≤ m.len - cur → ∀ k < insnLen op, m.read (cur + k) = m'.read (cur' + k)) →
    decodeAt m cur = decodeAt m' cur'

/-- R87 (decision D4): `decodeAt` answers `truncated` exactly when fewer bytes remain than the length,
and otherwise what the class says, with the literal at `cur + 1` and the address low byte at `cur + 1`,
high byte at `cur + 2` (R52, R53). -/
def Obligations.DecodeAtFollowsThePseudocode : Prop :=
  ∀ (m : Memory) (cur : Nat) (op : Byte), m.read cur = some op →
    (decodeAt m cur = .truncated ↔ m.len - cur < insnLen op) ∧
    (insnLen op ≤ m.len - cur →
      match classify op with
      | .nop => decodeAt m cur = .ok .nop 1
      | .mov d s => decodeAt m cur = .ok (.mov d s) 1
      | .mvi d => ∃ b, m.read (cur + 1) = some b ∧ decodeAt m cur = .ok (.mvi d b) 2
      | .ind .Store .B => decodeAt m cur = .ok .staxB 1
      | .ind .Store .D => decodeAt m cur = .ok .staxD 1
      | .ind .Load .B => decodeAt m cur = .ok .ldaxB 1
      | .ind .Load .D => decodeAt m cur = .ok .ldaxD 1
      | .direct .Store => ∃ lo hi, m.read (cur + 1) = some lo ∧ m.read (cur + 2) = some hi ∧
          decodeAt m cur = .ok (.sta (assembleAddr hi lo)) 3
      | .direct .Load => ∃ lo hi, m.read (cur + 1) = some lo ∧ m.read (cur + 2) = some hi ∧
          decodeAt m cur = .ok (.lda (assembleAddr hi lo)) 3
      | .unk => decodeAt m cur = .ok (.unknown op) 1)

/-- R52, R53: the MVI literal is the byte after the opcode taken whole; bits 15:8 of the STA and LDA
address are the second byte after the opcode and bits 7:0 the first, neither extended, scaled nor offset. -/
def Obligations.OperandAssembly : Prop :=
  (∀ (m : Memory) (cur : Nat) (op imm : Byte) (d : Reg), m.read cur = some op →
    classify op = .mvi d → m.read (cur + 1) = some imm →
    decodeAt m cur = .ok (.mvi d imm) 2) ∧
  (∀ (m : Memory) (cur : Nat) (op lo hi : Byte) (dir : Dir), m.read cur = some op →
    classify op = .direct dir → m.read (cur + 1) = some lo → m.read (cur + 2) = some hi →
    ∃ a : Addr16,
      decodeAt m cur = .ok (match dir with | .Store => .sta a | .Load => .lda a) 3 ∧
      a.extractLsb' 8 8 = hi ∧ a.extractLsb' 0 8 = lo ∧ a.toNat = hi.toNat <<< 8 ||| lo.toNat)

/-- R83, R84 (decisions D1, D4): in phase Run `avail` is 1, 2 or 3, and the `trunc` port is 1 exactly when
fewer bytes remain than the length, exactly when the decoder answers `truncated`; whatever stands on the
byte ports the image does not drive. -/
def Obligations.TruncationDetectorIsExact : Prop :=
  ∀ (s : State) (u0 u1 u2 op : Byte), s.fault = none → s.img.read s.cur = some op →
    1 ≤ s.avail ∧ s.avail ≤ 3 ∧
    ((stage (s.stageIn u0 u1 u2)).trunc = 1 ↔ s.img.len - s.cur < insnLen op) ∧
    ((stage (s.stageIn u0 u1 u2)).trunc = 1 ↔ decodeAt s.img s.cur = .truncated)

/-- R26, R86, R131 (decisions D1, D18, D19): the step computed from the stage's output ports, with the two
bytes after the opcode looked at before the class is known and any value on the ports the image does not
drive, is the step. -/
def Obligations.PortBuildIsTheStep : Prop :=
  ∀ (u0 u1 u2 : Byte) (s : State), stepViaPorts u0 u1 u2 s = step s

/-! ### The step -/

/-- R89: the step as one atomic transition. It is taken only in phase Run; truncated, it writes the fault
record alone (the policy is decision D4); otherwise it advances the address counter by 8 L and the cursor by L and emits one line with
the address recorded before. -/
def Obligations.StepIsOneAtomicTransition : Prop :=
  (∀ s t : State, step s = .next t → s.fault = none ∧ s.cur < s.img.len) ∧
  (∀ s : State, s.fault = none → s.cur < s.img.len →
    match decodeAt s.img s.cur with
    | .truncated => step s = .next { s with fault := some s.ac }
    | .ok i L => step s = .next { s with
        ac := s.ac + 8 * L
        cur := s.cur + L
        lines := s.lines ++ [⟨s.ac, Decoded.ofInstr i⟩] }
    | .noOpcode => False)

/-- A step in phase Run is `exec` of the instruction decoded at the cursor, which is well formed; the
wrapper adds nothing around it. -/
def Obligations.StepRunsTheDecodedInstruction : Prop :=
  ∀ (s : State) (i : Instr) (L : Nat), s.fault = none → s.cur < s.img.len →
    decodeAt s.img s.cur = .ok i L → step s = exec i s ∧ i.wf = true ∧ L = i.len

/-- R89 to R92: when the bytes at the cursor are the encoding of a well-formed instruction, the step is
that instruction's meaning, emits its line with the address counter's old value and advances by its
length. -/
def Obligations.EncodedInstructionAtCursorRuns : Prop :=
  ∀ (s : State) (i : Instr), i.wf = true → s.fault = none →
    (∀ k < (encode i).length, s.img.read (s.cur + k) = (encode i)[k]?) →
    step s = exec i s ∧
    exec i s = .next { s with
      cur := s.cur + (encode i).length
      ac := s.ac + 8 * (encode i).length
      lines := s.lines ++ [⟨s.ac, Decoded.ofInstr i⟩] }

/-- The frame of every instruction (R89, R117): each leaves the image and every byte of it; with enough
bytes it changes only the cursor, the address counter and the end of the lines; truncated it changes only
the fault record. There is no other state (R20). -/
def Obligations.FrameOfEveryInstruction : Prop :=
  ∀ (i : Instr) (s t : State), exec i s = .next t →
    t.img = s.img ∧ (∀ k, t.img.read k = s.img.read k) ∧
    ((s.cur + i.len ≤ s.img.len ∧ t.fault = s.fault ∧ s.fault = none ∧ t.cur = s.cur + i.len ∧
        t.ac = s.ac + 8 * i.len ∧ t.lines = s.lines ++ [⟨s.ac, Decoded.ofInstr i⟩]) ∨
      (s.img.len < s.cur + i.len ∧ t.fault = some s.ac ∧ s.fault = none ∧ t.cur = s.cur ∧
        t.ac = s.ac ∧ t.lines = s.lines ∧
        ((∃ d imm, i = .mvi d imm) ∨ (∃ a, i = .sta a) ∨ ∃ a, i = .lda a)))

/-- R90: a step that decodes an instruction of length L advances the address counter by 8 L, that is
8 (1 + extra), so by 8, 16 or 24; the truncation branch leaves it. -/
def Obligations.AddressCounterAdvancesByEightPerByte : Prop :=
  ∀ s t : State, step s = .next t →
    (∀ i L, decodeAt s.img s.cur = .ok i L →
      t.ac = s.ac + 8 * L ∧ (t.ac = s.ac + 8 ∨ t.ac = s.ac + 16 ∨ t.ac = s.ac + 24) ∧
      ∃ op, s.img.read s.cur = some op ∧ t.ac = s.ac + 8 * (1 + extraBytes op)) ∧
    (decodeAt s.img s.cur = .truncated → t.ac = s.ac)

/-- R91: a step that decodes an instruction of length L advances the cursor by L, to the next opcode byte
or the end; it never moves otherwise and never retreats; the truncation branch leaves it. -/
def Obligations.CursorAdvancesByTheLength : Prop :=
  ∀ s t : State, step s = .next t →
    s.cur ≤ t.cur ∧
    (∀ i L, decodeAt s.img s.cur = .ok i L →
      t.cur = s.cur + L ∧ t.cur ≤ s.img.len ∧
      ∃ op, s.img.read s.cur = some op ∧ t.cur = s.cur + (1 + extraBytes op)) ∧
    (decodeAt s.img s.cur = .truncated → t.cur = s.cur) ∧
    ((∃ i L, decodeAt s.img s.cur = .ok i L) ∨ decodeAt s.img s.cur = .truncated)

/-- R92: a step that decodes an instruction appends exactly one line, with the address counter's value
before the step; the truncation branch emits none. The line-out port that carries it is R27's, the spec's
decision D1 (its form: log 18). -/
def Obligations.OneLinePerDecodedInstruction : Prop :=
  ∀ s t : State, step s = .next t →
    (∀ i L, decodeAt s.img s.cur = .ok i L →
      t.lines = s.lines ++ [⟨s.ac, Decoded.ofInstr i⟩] ∧ lineOut s = [⟨s.ac, Decoded.ofInstr i⟩]) ∧
    (decodeAt s.img s.cur = .truncated → t.lines = s.lines ∧ lineOut s = [])

/-- R93: no step is taken in phase Done or Failed, and the `done` and `fail` ports show them. The other
status ports, and all of them in phase Run, are R27's, the spec's decisions D1 and D5; that the fault
address is absent outside phase Failed is the model's form (log 9). -/
def Obligations.TerminalPhasesTakeNoStep : Prop :=
  (∀ s : State, s.fault = none → s.cur = s.img.len →
    (∀ t, step s ≠ .next t) ∧ s.phase = .done ∧ s.ports.done = 1 ∧ s.ports.fail = 0 ∧
      s.ports.failAddr = none) ∧
  (∀ (s : State) (a : Nat), s.fault = some a →
    (∀ t, step s ≠ .next t) ∧ s.phase = .failed a ∧ s.ports.fail = 1 ∧ s.ports.failAddr = some a ∧
      s.ports.done = 0) ∧
  (∀ s : State, s.fault = none → s.cur < s.img.len →
    s.phase = .run ∧ s.ports.done = 0 ∧ s.ports.fail = 0 ∧ s.ports.failAddr = none)

/-- R63, R89: no byte stops the machine. In phase Run a step is always taken, whatever the image holds,
and it emits a line or records the fault. -/
def Obligations.RunPhaseAlwaysSteps : Prop :=
  ∀ s : State, s.fault = none → s.cur < s.img.len →
    ∃ t, step s = .next t ∧
      ((t.fault = none ∧ t.lines.length = s.lines.length + 1) ∨
        (t.fault = some s.ac ∧ t.lines = s.lines))

/-- R116, R84 (decisions D4, D5): a step that sets the fault record found an MVI as the last byte, or an
STA or LDA with fewer than two bytes after it, and records the display address of that opcode. -/
def Obligations.OnlyMviStaLdaAreTruncated : Prop :=
  ∀ (s t : State) (a : Nat), step s = .next t → t.fault = some a →
    a = s.ac ∧ ∃ op, s.img.read s.cur = some op ∧
      (((∃ d, classify op = .mvi d) ∧ s.cur + 1 = s.img.len) ∨
        ((∃ dir, classify op = .direct dir) ∧ s.img.len ≤ s.cur + 2))

/-- R117 (decisions D4, D5): entry of `Truncated`, from the step and from the meanings of the three
instructions that can raise it: the fault record takes the address counter, everything else stays, the
phase and ports become those of Failed, the pass ends. -/
def Obligations.TruncatedEntryRecordsTheAddress : Prop :=
  (∀ s : State, s.fault = none → s.cur < s.img.len → decodeAt s.img s.cur = .truncated →
    step s = .next { s with fault := some s.ac }) ∧
  (∀ (s : State) (d : Reg) (imm : Byte), s.fault = none → s.cur < s.img.len →
    s.img.len < s.cur + 2 → exec (.mvi d imm) s = .next { s with fault := some s.ac }) ∧
  (∀ (s : State) (a : Addr16), s.fault = none → s.cur < s.img.len → s.img.len < s.cur + 3 →
    exec (.sta a) s = .next { s with fault := some s.ac } ∧
    exec (.lda a) s = .next { s with fault := some s.ac }) ∧
  (∀ (s t : State) (a : Nat), step s = .next t → t.fault = some a →
    t.phase = .failed s.ac ∧ t.ports.fail = 1 ∧ t.ports.failAddr = some s.ac ∧
      ∀ u, step t ≠ .next u)

/-- R15, R120 (decisions D4, D5, D24): the fault record is written only by the fault branch and never
again in the pass: from a state that holds one, no other state is reached. -/
def Obligations.FaultRecordIsWrittenOnce : Prop :=
  (∀ s t : State, step s = .next t →
    s.fault = none ∧
      (t.fault = none ∨ (t.fault = some s.ac ∧ decodeAt s.img s.cur = .truncated))) ∧
  (∀ (s t : State) (a : Nat), s.fault = some a → Reaches s t → t = s)

/-! ### Invariants of a pass -/

/-- R13: from the start of a pass the cursor is 0, then always between 0 and the image's length, never
retreats, changes only by the length of the instruction decoded at it, and points at the first unconsumed
byte: it is the sum of the lengths of the instructions whose lines were emitted. -/
def Obligations.CursorStaysInTheImage : Prop :=
  (∀ img : List Byte, (passStart img).cur = 0) ∧
  (∀ (img : List Byte) (t : State), Reaches (passStart img) t → t.cur ≤ img.length) ∧
  (∀ s t : State, Reaches s t → s.cur ≤ t.cur) ∧
  (∀ s t : State, step s = .next t → t.cur ≠ s.cur →
    ∃ i L, decodeAt s.img s.cur = .ok i L ∧ t.cur = s.cur + L) ∧
  (∀ (img : List Byte) (t : State), Reaches (passStart img) t →
    t.cur = (t.lines.map fun l => l.instr.len).sum)

/-- R14: the address counter starts at 0, never decreases, and changes only by 8 times the number of bytes
consumed for the current instruction. -/
def Obligations.AddressCounterNeverDecreases : Prop :=
  (∀ img : List Byte, (passStart img).ac = 0) ∧
  (∀ s t : State, Reaches s t → s.ac ≤ t.ac) ∧
  (∀ s t : State, step s = .next t → t.ac = s.ac + 8 * (t.cur - s.cur))

/-- R16: the output history starts empty, is append-only, and an emitted line never changes. -/
def Obligations.LinesAreAppendOnly : Prop :=
  (∀ img : List Byte, (passStart img).lines = []) ∧
  (∀ s t : State, Reaches s t → s.lines <+: t.lines) ∧
  (∀ (s t : State) (k : Nat) (l : Line), Reaches s t → s.lines[k]? = some l → t.lines[k]? = some l)

/-- R39, R42 (decision D13): no run of steps changes the image or any byte of it, and a host that changes
it in phase Run is refused (93 A7; the refusal by name is the model's form, log 15). -/
def Obligations.ImageNeverChangesDuringAPass : Prop :=
  (∀ s t : State, Reaches s t → t.img = s.img ∧ ∀ i, t.img.read i = s.img.read i) ∧
  (∀ (cfg : Config) (s : State) (img : List Byte), s.fault = none → s.cur < s.img.len →
    react cfg (.changeImage img) s = .refused .imageChangedDuringPass)

/-- The invariant holds at the start of every pass and after reset (R28). That the image is empty after
reset, where no host has supplied one, is the model's choice (log 5). -/
def Obligations.InvariantHoldsAtTheStart : Prop :=
  State.reset.Inv ∧ State.reset = passStart [] ∧ ∀ img : List Byte, (passStart img).Inv

/-- Every step keeps the invariant: canonical image, cursor in the image, address counter 8 times the
cursor (R18, derived there), fault record at a truncated instruction at the current address (R118), lines
tiling the consumed bytes (R98). From every state that has it, reached or not. -/
def Obligations.StepKeepsTheInvariant : Prop :=
  ∀ s t : State, s.Inv → step s = .next t → t.Inv

/-- Every step keeps that each emitted line was decoded from the image bytes at its address (R89, R92). -/
def Obligations.LinesComeFromTheImage : Prop :=
  (∀ img : List Byte, (passStart img).LinesFromImage) ∧
  (∀ s t : State, s.ac = 8 * s.cur → s.LinesFromImage → step s = .next t → t.LinesFromImage)

/-! ### Whole passes -/

/-- R95 (derived): every pass ends, after at most n steps, and more fuel changes nothing. -/
def Obligations.EveryPassEnds : Prop :=
  ∀ img : List Byte, ∃ k ≤ img.length,
    (loop k (passStart img)).phase ≠ .run ∧
    ∀ m ≥ k, loop m (passStart img) = loop k (passStart img)

/-- R96: the pass over a byte sequence is its disassembly, written by recursion on the bytes with no
cursor, no fuel and no state. The exact byte values are the spec's decision D2 (log 7), the truncation
policy and its address the decisions D4 and D5 (log 9). -/
def Obligations.PassIsTheDisassembly : Prop :=
  ∀ img : List Byte, run img = ((disassemble 0 img).1, some (disassemble 0 img).2)

/-- R97 (derived): the data-is-not-opcode property. No state of a pass has its cursor inside an
instruction decoded in that pass. -/
def Obligations.OperandBytesAreNeverClassified : Prop :=
  ∀ (img : List Byte) (s t : State) (i : Instr) (L : Nat),
    Reaches (passStart img) s → Reaches (passStart img) t →
    decodeAt s.img s.cur = .ok i L → t.cur ≤ s.cur ∨ s.cur + L ≤ t.cur

/-- R98 (derived): the address of line k is 8 times the sum of the lengths of the lines before it, and
addresses rise strictly. -/
def Obligations.LineAddressesAreSumsOfLengths : Prop :=
  ∀ img : List Byte,
    (∀ (k : Nat) (l : Line), (run img).1[k]? = some l →
      l.addr = 8 * (((run img).1.take k).map fun l => l.instr.len).sum) ∧
    (run img).1.Pairwise (fun l l' => l.addr < l'.addr)

/-- R99 (derived): in a pass that ends Done the lengths of the lines sum to n; in one that ends
Failed(a) they sum to a / 8, which is inside the image. -/
def Obligations.LineLengthsCoverTheConsumedBytes : Prop :=
  ∀ img : List Byte,
    ((run img).2 = some .done → ((run img).1.map fun l => l.instr.len).sum = img.length) ∧
    (∀ a, (run img).2 = some (.failed a) →
      8 * ((run img).1.map fun l => l.instr.len).sum = a ∧ a / 8 < img.length)

/-- R100 (derived): an image of N zero bytes gives N lines NOP at 0, 8, ..., 8(N-1), and ends Done. -/
def Obligations.AllNopImage : Prop :=
  ∀ N : Nat, run (List.replicate N 0x00) =
    ((List.range N).map fun k => ⟨8 * k, .NOP⟩, some .done)

/-- R101 (derived): an image of one-byte instructions gives one line per byte, line k at 8 k, and ends
Done. -/
def Obligations.OneByteInstructionImages : Prop :=
  ∀ img : List Byte, (∀ b ∈ img, insnLen b = 1) →
    (run img).1.map (fun l => l.addr) = (List.range img.length).map (fun k => 8 * k) ∧
    (run img).2 = some .done

/-- R118, R119 (R118 derived; decisions D4, D5): a failed pass ends in the state before the truncated
instruction with only the fault record added, and its result is that state's lines. -/
def Obligations.FailureIsPrecise : Prop :=
  ∀ (img : List Byte) (a : Nat), (run img).2 = some (.failed a) →
    ∃ s : State, Reaches (passStart img) s ∧ s.fault = none ∧ s.ac = a ∧
      decodeAt s.img s.cur = .truncated ∧
      loop (img.length + 1) (passStart img) = { s with fault := some a } ∧ (run img).1 = s.lines

/-! ### Start, limits, sessions, instances -/

/-- R28: every piece of state at the start of a pass, over any image the host supplies. -/
def Obligations.StartValues : Prop :=
  ∀ img : List Byte,
    (passStart img).cur = 0 ∧ (passStart img).ac = 0 ∧ (passStart img).fault = none ∧
    (passStart img).lines = [] ∧ (passStart img).img.bytes = img ∧
    (passStart img).img.len = img.length ∧
    (passStart img).phase = if 0 < img.length then .run else .done

/-- R19, R127 (decisions D6, D16): `start` refuses an image longer than MAX_IMAGE_LEN and otherwise gives
the start state, whatever the old state; in the pass it starts, the cursor stays within MAX_IMAGE_LEN, the
address counter within 8 times that, and every line's address within 8 (MAX_IMAGE_LEN - 1). The refusal by
name is the model's form (log 10). -/
def Obligations.StartRespectsTheImageBound : Prop :=
  ∀ (cfg : Config) (img : List Byte) (old : State),
    (cfg.maxImageLen < img.length → react cfg (.start img) old = .refused .imageTooLong) ∧
    (img.length ≤ cfg.maxImageLen → react cfg (.start img) old = .next (passStart img) ∧
      ∀ t, Reaches (passStart img) t →
        t.cur ≤ cfg.maxImageLen ∧ t.ac ≤ 8 * cfg.maxImageLen ∧
        ∀ l ∈ t.lines, l.addr ≤ 8 * (cfg.maxImageLen - 1))

/-- R119, R129 (decision D16): whatever happens, lines the host has taken and outcomes reported to it stay;
a `start` in phase Run abandons the pass without a report of it (a pass over the empty image is Done at
once, R94); a step hands over the lines it emits, and reports the outcome exactly if it ends the pass
(R27; the host's record is the model's form, log 14). -/
def Obligations.HostKeepsLinesAcrossPasses : Prop :=
  (∀ (cfg : Config) (e : Event) (h h' : Session), Session.react cfg e h = .next h' →
    h.received <+: h'.received ∧ h.reports <+: h'.reports) ∧
  (∀ (cfg : Config) (img : List Byte) (h : Session), img.length ≤ cfg.maxImageLen →
    Session.react cfg (.start img) h = .next
      ⟨h.received, h.reports ++ (if img = [] then [.done] else []), passStart img⟩) ∧
  (∀ (cfg : Config) (h h' : Session), Session.react cfg .step h = .next h' →
    h'.received = h.received ++ lineOut h.machine ∧
    h'.reports = h.reports ++ h'.machine.outcome.toList ∧
    h'.machine.lines = h.machine.lines ++ lineOut h.machine)

/-- R46, R126: a step of one instance leaves every other instance as it was and does not depend on it. -/
def Obligations.InstancesAreIndependent : Prop :=
  (∀ (k j : Nat) (ss tt : List State), stepInstance k ss = .next tt → j ≠ k → tt[j]? = ss[j]?) ∧
  (∀ (k : Nat) (ss ss' tt tt' : List State), ss[k]? = ss'[k]? →
    stepInstance k ss = .next tt → stepInstance k ss' = .next tt' → tt[k]? = tt'[k]?)

/-! ### The text -/

/-- R105 to R111, R114: the mnemonic texts but for STA and LDA, under any parameters, with the texts of the
pairs (R106, decision D3; log 8). The lower case of the MVI literal is decision D7 (log 11), its width the
parameter of decision D8 (log 10). -/
def Obligations.MnemonicTexts : Prop :=
  ∀ cfg : Config,
    mnemonic cfg .NOP = "NOP" ∧
    (∀ d s : Reg, mnemonic cfg (.MOV d s) = "MOV " ++ regText d ++ " " ++ regText s) ∧
    (decode [0x7E] = .ok (.mov .A .M) 1 ∧ mnemonic cfg (.MOV .A .M) = "MOV A Memory") ∧
    (∀ (d : Reg) (imm : Byte),
      mnemonic cfg (.MVI d imm) = "MVI " ++ regText d ++ " " ++ hex imm.toNat cfg.immHexWidth) ∧
    ((run [0x06, 0x0A]).1.map fun l => mnemonic Config.default l.instr) = ["MVI B 0x0a"] ∧
    pairText .B = "B" ∧ pairText .D = "D" ∧
    (∀ p : Pair, mnemonic cfg (.STAX p) = "STAX " ++ pairText p) ∧
    (∀ p : Pair, mnemonic cfg (.LDAX p) = "LDAX " ++ pairText p) ∧
    mnemonic cfg .UNKNOWN = "UNKNOWN"

/-- R112, R113: the address of STA and LDA is four lower-case hex digits, the most significant nibble
first. -/
def Obligations.DirectAddressText : Prop :=
  (∀ (cfg : Config) (a : Addr16),
    let digits := String.ofList [hexDigit (a.toNat / 4096), hexDigit (a.toNat / 256 % 16),
      hexDigit (a.toNat / 16 % 16), hexDigit (a.toNat % 16)]
    hex a.toNat 4 = "0x" ++ digits ∧
    mnemonic cfg (.STA a) = "STA " ++ hex a.toNat 4 ∧
    mnemonic cfg (.LDA a) = "LDA " ++ hex a.toNat 4) ∧
  (∀ cfg : Config, ((run [0x32, 0xEF, 0xBE]).1.map fun l => mnemonic cfg l.instr) = ["STA 0xbeef"]) ∧
  (∀ cfg : Config, ((run [0x3A, 0x00, 0x00]).1.map fun l => mnemonic cfg l.instr) = ["LDA 0x0000"])

/-- R103 (lower case: decision D7): `hex` is `0x` and digits of `0123456789abcdef` that read back as the
value, at least `w` of them, and no leading zero beyond `w`. -/
def Obligations.HexTextIsTheValue : Prop :=
  ∀ v w : Nat, 1 ≤ w → ∃ ds : List Char,
    hex v w = "0x" ++ String.ofList ds ∧ (∀ c ∈ ds, c ∈ "0123456789abcdef".toList) ∧
    hexValue ds = v ∧ w ≤ ds.length ∧ (w < ds.length → ds.head? ≠ some '0')

/-- R104, R102 (decisions D6, D9, D10): with R19's relation between the parameters, every line of a pass
is an address of exactly ADDR_HEX_WIDTH digits, TAB, mnemonic, LF: the width is stable within a run. The
output text of a pass is its rendered lines, character after character, in emission order. -/
def Obligations.AddressWidthIsStable : Prop :=
  (∀ (cfg : Config) (img : List Byte), cfg.AddressesFit → 1 ≤ cfg.addrHexWidth →
    img.length ≤ cfg.maxImageLen → ∀ l ∈ (run img).1,
      (hex l.addr cfg.addrHexWidth).length = 2 + cfg.addrHexWidth ∧
      render cfg l = hex l.addr cfg.addrHexWidth ++ "\t" ++ mnemonic cfg l.instr ++ "\n") ∧
  (∀ (cfg : Config) (lines : List Line),
    (outputText cfg lines).toList = lines.flatMap fun l => (render cfg l).toList)

/-- R115 (derived): distinct instructions have distinct text and distinct lines are rendered differently,
under any parameters. -/
def Obligations.RenderingIsInjective : Prop :=
  (∀ (cfg : Config) (d d' : Decoded), mnemonic cfg d = mnemonic cfg d' → d = d') ∧
  (∀ (cfg : Config) (l l' : Line), render cfg l = render cfg l' → l = l')
end

