-- ==== Sys2Proof/Laws/Memory.lean ====
section
/-!
SUPPORT. The image: every operation keeps the canonical form, what a byte reads as after each of them,
and equal images are equal data.
-/
namespace Sys2Proof.Machine

/-! ### The canonical form -/

theorem Memory.cellsWf_cons (n lo a : Nat) (b : Byte) (rest : List Host.Cell) :
    Memory.cellsWf n lo ((a, b) :: rest) = true ↔
      lo ≤ a ∧ a < n ∧ b ≠ Memory.unlistedByte ∧ Memory.cellsWf n (a + 1) rest = true := by
  simp [Memory.cellsWf, and_assoc]

/-- A longer image and a lower first index keep the form. -/
theorem Memory.cellsWf_mono {n n' : Nat} (hn : n ≤ n') :
    ∀ {cells : List Host.Cell} {lo lo' : Nat}, lo' ≤ lo →
      Memory.cellsWf n lo cells = true → Memory.cellsWf n' lo' cells = true
  | [], _, _, _, _ => rfl
  | (a, b) :: rest, lo, lo', hlo, h => by
    rw [Memory.cellsWf_cons] at h ⊢
    exact ⟨by omega, by omega, h.2.2.1, Memory.cellsWf_mono hn (Nat.le_refl _) h.2.2.2⟩

/-- A cell below the first index is not listed. -/
theorem Memory.cellAt_below {n : Nat} :
    ∀ {cells : List Host.Cell} {lo i : Nat}, Memory.cellsWf n lo cells = true → i < lo →
      Memory.cellAt cells i = Memory.unlistedByte
  | [], _, _, _, _ => rfl
  | (a, b) :: rest, lo, i, h, hi => by
    rw [Memory.cellsWf_cons] at h
    rw [Memory.cellAt, if_neg (by omega)]
    exact Memory.cellAt_below h.2.2.2 (by omega)

/-- No cell at or beyond the length is listed. -/
theorem Memory.cellAt_beyond {n : Nat} :
    ∀ {cells : List Host.Cell} {lo i : Nat}, Memory.cellsWf n lo cells = true → n ≤ i →
      Memory.cellAt cells i = Memory.unlistedByte
  | [], _, _, _, _ => rfl
  | (a, b) :: rest, lo, i, h, hi => by
    rw [Memory.cellsWf_cons] at h
    rw [Memory.cellAt, if_neg (by omega)]
    exact Memory.cellAt_beyond h.2.2.2 hi

theorem Memory.cellsWf_setCell {n i : Nat} (b : Byte) (hi : i < n) :
    ∀ {cells : List Host.Cell} {lo : Nat}, lo ≤ i → Memory.cellsWf n lo cells = true →
      Memory.cellsWf n lo (Memory.setCell i b cells) = true
  | [], lo, hlo, _ => by
    by_cases hb : b = Memory.unlistedByte
    · simp [Memory.setCell, hb, Memory.cellsWf]
    · rw [Memory.setCell, if_neg hb, Memory.cellsWf_cons]
      exact ⟨hlo, hi, hb, rfl⟩
  | (a, c) :: rest, lo, hlo, h => by
    have h' := (Memory.cellsWf_cons _ _ _ _ _).1 h
    by_cases ha : a < i
    · rw [Memory.setCell, if_pos ha, Memory.cellsWf_cons]
      exact ⟨h'.1, h'.2.1, h'.2.2.1, Memory.cellsWf_setCell b hi (by omega) h'.2.2.2⟩
    · have htail : Memory.cellsWf n (i + 1) (if a = i then rest else (a, c) :: rest) = true := by
        by_cases hai : a = i
        · simpa [hai] using h'.2.2.2
        · rw [if_neg hai, Memory.cellsWf_cons]
          exact ⟨by omega, h'.2.1, h'.2.2.1, h'.2.2.2⟩
      rw [Memory.setCell, if_neg ha]
      by_cases hb : b = Memory.unlistedByte
      · simp only [hb, if_true]
        exact Memory.cellsWf_mono (Nat.le_refl _) (by omega) htail
      · simp only [if_neg hb]
        rw [Memory.cellsWf_cons]
        exact ⟨hlo, hi, hb, htail⟩

/-- Writing a byte keeps the canonical form. -/
theorem Memory.wf_write (m : Memory) (i : Nat) (b : Byte) (h : m.wf = true) :
    (m.write i b).wf = true := by
  have : Memory.cellsWf (max m.len (i + 1)) 0 m.cells = true :=
    Memory.cellsWf_mono (Nat.le_max_left _ _) (Nat.le_refl _) h
  exact Memory.cellsWf_setCell (n := max m.len (i + 1)) b (by omega) (Nat.zero_le _) this

/-- Placing bytes keeps the canonical form. -/
theorem Memory.wf_place : ∀ (bs : List Byte) (m : Memory) (i : Nat), m.wf = true →
    (m.place i bs).wf = true
  | [], _, _, h => h
  | b :: bs, m, i, h => Memory.wf_place bs _ _ (Memory.wf_write m i b h)

theorem Memory.cellsWf_cellsOf : ∀ (bs : List Byte) (i n : Nat), i + bs.length ≤ n →
    Memory.cellsWf n i (Memory.cellsOf i bs) = true
  | [], _, _, _ => rfl
  | b :: bs, i, n, h => by
    rw [List.length_cons] at h
    have ih := Memory.cellsWf_cellsOf bs (i + 1) n (by omega)
    by_cases hb : b = Memory.unlistedByte
    · rw [Memory.cellsOf, if_pos hb]
      exact Memory.cellsWf_mono (Nat.le_refl _) (by omega) ih
    · rw [Memory.cellsOf, if_neg hb, Memory.cellsWf_cons]
      exact ⟨Nat.le_refl _, by omega, hb, ih⟩

/-- The image the host supplies is canonical. -/
theorem Memory.wf_ofBytes (bs : List Byte) : (Memory.ofBytes bs).wf = true :=
  Memory.cellsWf_cellsOf bs 0 bs.length (by omega)

/-- The image after reset is canonical. -/
theorem Memory.wf_reset : State.reset.img.wf = true := rfl

/-! ### Reading -/

@[simp] theorem Memory.len_ofBytes (bs : List Byte) : (Memory.ofBytes bs).len = bs.length := rfl

@[simp] theorem Memory.length_bytes (m : Memory) : m.bytes.length = m.len := by
  simp [Memory.bytes]

theorem Memory.getElem?_bytes (m : Memory) (i : Nat) : m.bytes[i]? = m.read i := by
  by_cases h : i < m.len <;> simp [Memory.bytes, Memory.read, h]

theorem Memory.read_eq_none_iff (m : Memory) (i : Nat) : m.read i = none ↔ m.len ≤ i := by
  by_cases h : i < m.len
  · simp [Memory.read, h]
  · simp [Memory.read, h, Nat.not_lt.1 h]

theorem Memory.cellAt_cellsOf : ∀ (bs : List Byte) (i k : Nat),
    Memory.cellAt (Memory.cellsOf i bs) (i + k) = bs.getD k Memory.unlistedByte
  | [], i, k => by simp [Memory.cellsOf, Memory.cellAt]
  | b :: bs, i, 0 => by
    by_cases hb : b = Memory.unlistedByte
    · rw [Memory.cellsOf, if_pos hb, Nat.add_zero,
        Memory.cellAt_below (Memory.cellsWf_cellsOf bs (i + 1) _ (Nat.le_refl _)) (by omega), hb]
      rfl
    · simp [Memory.cellsOf, hb, Memory.cellAt]
  | b :: bs, i, k + 1 => by
    have ih := Memory.cellAt_cellsOf bs (i + 1) k
    rw [show i + (k + 1) = i + 1 + k from by omega]
    by_cases hb : b = Memory.unlistedByte
    · rw [Memory.cellsOf, if_pos hb, ih]
      rfl
    · rw [Memory.cellsOf, if_neg hb, Memory.cellAt, if_neg (by omega), ih]
      rfl

/-- The image supplied reads as the byte sequence it was made from. -/
theorem Memory.read_ofBytes (bs : List Byte) (i : Nat) : (Memory.ofBytes bs).read i = bs[i]? := by
  have h := Memory.cellAt_cellsOf bs 0 i
  rw [Nat.zero_add] at h
  by_cases hi : i < bs.length
  · simp [Memory.read, Memory.ofBytes, hi, h]
  · simp [Memory.read, Memory.ofBytes, hi]

theorem Memory.bytes_ofBytes (bs : List Byte) : (Memory.ofBytes bs).bytes = bs := by
  apply List.ext_getElem?
  intro i
  rw [Memory.getElem?_bytes, Memory.read_ofBytes]

/-- The window at an index is the next three bytes of the image, fewer at its end. -/
theorem Memory.window_eq_take_drop (m : Memory) (i : Nat) :
    m.window i = (m.bytes.drop i).take maxInsnLen := by
  have key : ∀ (l : List Byte) (j : Nat),
      (List.range 3).filterMap (fun k => l[j + k]?) = (l.drop j).take 3 := by
    intro l j
    rw [show (fun k => l[j + k]?) = fun k => (l.drop j)[k]? from by
      funext k; rw [List.getElem?_drop]]
    generalize l.drop j = t
    match t with
    | [] => rfl
    | [_] => rfl
    | [_, _] => rfl
    | _ :: _ :: _ :: _ => rfl
  simpa only [Memory.window, Memory.getElem?_bytes] using key m.bytes i

theorem Memory.window_ofBytes (bs : List Byte) (i : Nat) :
    (Memory.ofBytes bs).window i = (bs.drop i).take maxInsnLen := by
  rw [Memory.window_eq_take_drop, Memory.bytes_ofBytes]

@[simp] theorem Memory.length_window (m : Memory) (i : Nat) :
    (m.window i).length = min (m.len - i) 3 := by
  simp [Memory.window_eq_take_drop, Nat.min_comm]

/-! ### Writing -/

theorem Memory.cellAt_setCell_eq {n : Nat} (i : Nat) (b : Byte) :
    ∀ {cells : List Host.Cell} {lo : Nat}, Memory.cellsWf n lo cells = true →
      Memory.cellAt (Memory.setCell i b cells) i = b
  | [], _, _ => by
    by_cases hb : b = Memory.unlistedByte <;> simp [Memory.setCell, Memory.cellAt, hb]
  | (a, c) :: rest, lo, h => by
    have h' := (Memory.cellsWf_cons _ _ _ _ _).1 h
    by_cases ha : a < i
    · rw [Memory.setCell, if_pos ha, Memory.cellAt, if_neg (by omega)]
      exact Memory.cellAt_setCell_eq i b h'.2.2.2
    · rw [Memory.setCell, if_neg ha]
      by_cases hb : b = Memory.unlistedByte
      · simp only [hb, if_true]
        by_cases hai : a = i
        · simpa [hai] using Memory.cellAt_below h'.2.2.2 (by omega)
        · rw [if_neg hai, Memory.cellAt, if_neg hai]
          exact Memory.cellAt_below h'.2.2.2 (by omega)
      · simp [hb, Memory.cellAt]

theorem Memory.cellAt_setCell_ne {n : Nat} (i : Nat) (b : Byte) {j : Nat} (hj : j ≠ i) :
    ∀ {cells : List Host.Cell} {lo : Nat}, Memory.cellsWf n lo cells = true →
      Memory.cellAt (Memory.setCell i b cells) j = Memory.cellAt cells j
  | [], _, _ => by
    by_cases hb : b = Memory.unlistedByte
    · simp [Memory.setCell, Memory.cellAt, hb]
    · simp [Memory.setCell, Memory.cellAt, hb, Ne.symm hj]
  | (a, c) :: rest, lo, h => by
    have h' := (Memory.cellsWf_cons _ _ _ _ _).1 h
    by_cases ha : a < i
    · rw [Memory.setCell, if_pos ha, Memory.cellAt, Memory.cellAt]
      by_cases haj : a = j
      · simp [haj]
      · simpa [haj] using Memory.cellAt_setCell_ne i b hj h'.2.2.2
    · rw [Memory.setCell, if_neg ha]
      have htail : Memory.cellAt (if a = i then rest else (a, c) :: rest) j =
          Memory.cellAt ((a, c) :: rest) j := by
        by_cases hai : a = i
        · rw [if_pos hai, Memory.cellAt, if_neg (by omega)]
        · rw [if_neg hai]
      by_cases hb : b = Memory.unlistedByte
      · simpa [hb] using htail
      · simp only [if_neg hb]
        rw [Memory.cellAt, if_neg (Ne.symm hj), htail]

/-- The byte written is the byte read. -/
theorem Memory.read_write_eq (m : Memory) (i : Nat) (b : Byte) (h : m.wf = true) :
    (m.write i b).read i = some b := by
  have hlt : i < max m.len (i + 1) := by omega
  simp [Memory.read, Memory.write, Memory.cellAt_setCell_eq i b h, hlt]

/-- A write leaves every other index of the image alone. -/
theorem Memory.read_write_ne (m : Memory) (i j : Nat) (b : Byte) (h : m.wf = true) (hj : j ≠ i)
    (hlen : j < m.len) : (m.write i b).read j = m.read j := by
  have hlt : j < max m.len (i + 1) := by omega
  simp [Memory.read, Memory.write, Memory.cellAt_setCell_ne i b hj h, hlt, hlen]

/-! ### Equal images are equal data -/

theorem Memory.cells_ext {n : Nat} :
    ∀ {c d : List Host.Cell} {lo : Nat}, Memory.cellsWf n lo c = true →
      Memory.cellsWf n lo d = true → (∀ i, Memory.cellAt c i = Memory.cellAt d i) → c = d
  | [], [], _, _, _, _ => rfl
  | [], (a, b) :: _, _, _, hd, h => by
    have h' := (Memory.cellsWf_cons _ _ _ _ _).1 hd
    have := h a
    simp [Memory.cellAt] at this
    exact absurd this.symm h'.2.2.1
  | (a, b) :: _, [], _, hc, _, h => by
    have h' := (Memory.cellsWf_cons _ _ _ _ _).1 hc
    have := h a
    simp [Memory.cellAt] at this
    exact absurd this h'.2.2.1
  | (a, b) :: c, (a', b') :: d, lo, hc, hd, h => by
    have hc' := (Memory.cellsWf_cons _ _ _ _ _).1 hc
    have hd' := (Memory.cellsWf_cons _ _ _ _ _).1 hd
    have haa : a = a' := by
      rcases Nat.lt_trichotomy a a' with hlt | heq | hgt
      · have := h a
        rw [Memory.cellAt, if_pos rfl, Memory.cellAt, if_neg (by omega),
          Memory.cellAt_below hd'.2.2.2 (by omega)] at this
        exact absurd this hc'.2.2.1
      · exact heq
      · have := h a'
        rw [Memory.cellAt, if_neg (by omega), Memory.cellAt_below hc'.2.2.2 (by omega),
          Memory.cellAt, if_pos rfl] at this
        exact absurd this.symm hd'.2.2.1
    subst haa
    have hbb : b = b' := by simpa [Memory.cellAt] using h a
    subst hbb
    have : c = d := Memory.cells_ext hc'.2.2.2 hd'.2.2.2 fun i => by
      by_cases hi : i = a
      · rw [Memory.cellAt_below hc'.2.2.2 (by omega), Memory.cellAt_below hd'.2.2.2 (by omega)]
      · simpa [Memory.cellAt, Ne.symm hi] using h i
    rw [this]

/-- Two canonical images with the same bytes are the same data. -/
theorem Memory.ext_of_bytes {m m' : Memory} (h : m.wf = true) (h' : m'.wf = true)
    (hb : m.bytes = m'.bytes) : m = m' := by
  obtain ⟨n, c⟩ := m
  obtain ⟨n', c'⟩ := m'
  have hn : n = n' := by simpa using congrArg List.length hb
  subst hn
  have hc : c = c' := Memory.cells_ext h h' fun i => by
    by_cases hi : i < n
    · have := Memory.getElem?_bytes ⟨n, c⟩ i
      rw [hb, Memory.getElem?_bytes] at this
      simpa [Memory.read, hi] using this.symm
    · have ha : ∀ {d : List Host.Cell}, Memory.cellsWf n 0 d = true →
          Memory.cellAt d i = Memory.unlistedByte := by
        intro d hd
        exact Memory.cellAt_beyond hd (by omega)
      rw [ha h, ha h']
  rw [hc]

end Sys2Proof.Machine
end

