-- ==== Sys2Proof/Laws/Decode.lean ====
section
/-!
SUPPORT. The decoder: register fields and identifiers are the same thing, lengths, and every way
`decode` can answer.
-/
namespace Sys2Proof

@[simp] theorem Reg.ofField_field (r : Reg) : Reg.ofField r.field = r := by cases r <;> rfl

@[simp] theorem Reg.field_ofField (k : RegField) : (Reg.ofField k).field = k := by
  revert k; decide

theorem Class.len_pos (c : Class) : 1 ≤ c.len := by cases c <;> simp [Class.len]

theorem Class.len_le (c : Class) : c.len ≤ 3 := by cases c <;> simp [Class.len]

theorem insnLen_pos (op : Byte) : 1 ≤ insnLen op := Class.len_pos _

theorem insnLen_le (op : Byte) : insnLen op ≤ 3 := Class.len_le _

theorem Instr.len_pos (i : Instr) : 1 ≤ i.len := by cases i <;> simp [Instr.len]

theorem Instr.len_le (i : Instr) : i.len ≤ 3 := by cases i <;> simp [Instr.len]

/-- A byte is its three fields (R47). -/
theorem byte_eq_fields (op : Byte) : op = topField op ++ dstField op ++ srcField op := by
  revert op; decide +kernel

/-- A byte the classifier calls unrecognised is one R60 lists. -/
theorem unrecognised_of_classify (op : Byte) : classify op = .unk → unrecognised op = true := by
  revert op; decide +kernel

/-- A byte R60 lists is one the classifier calls unrecognised. -/
theorem classify_of_unrecognised (op : Byte) : unrecognised op = true → classify op = .unk := by
  revert op; decide +kernel

theorem classify_mov {op : Byte} {d s : Reg} (h : classify op = .mov d s) :
    op = 0b01#2 ++ d.field ++ s.field := by
  unfold classify at h
  split_ifs at h with _ _ _ _ _ _ _ ht _
  cases h
  rw [Reg.field_ofField, Reg.field_ofField, ← ht]
  exact byte_eq_fields op

theorem classify_mvi {op : Byte} {d : Reg} (h : classify op = .mvi d) :
    op = 0b00#2 ++ d.field ++ 0b110#3 := by
  unfold classify at h
  split_ifs at h with _ _ _ _ _ _ _ _ ht
  cases h
  rw [Reg.field_ofField, ← ht.1, ← ht.2]
  exact byte_eq_fields op

/-- The bytes the classifier answers exactly for (R54, R57). -/
theorem classify_exact (op : Byte) :
    (classify op = .nop → op = 0x00) ∧
    (classify op = .ind .Store .B → op = 0x02) ∧ (classify op = .ind .Store .D → op = 0x12) ∧
    (classify op = .ind .Load .B → op = 0x0A) ∧ (classify op = .ind .Load .D → op = 0x1A) ∧
    (classify op = .direct .Store → op = 0x32) ∧ (classify op = .direct .Load → op = 0x3A) := by
  revert op; decide +kernel

/-- The address operand as a number: the high byte counts 256 (R8, R32). -/
theorem toNat_assembleAddr (hi lo : Byte) :
    (assembleAddr hi lo).toNat = 256 * hi.toNat + lo.toNat := by
  have hlo := lo.isLt
  have h : (assembleAddr hi lo).toNat = hi.toNat <<< 8 ||| lo.toNat := BitVec.toNat_append hi lo
  rw [h, ← Nat.shiftLeft_add_eq_or_of_lt hlo, Nat.shiftLeft_eq]
  omega

@[simp] theorem low_assembleAddr (hi lo : Byte) : (assembleAddr hi lo).extractLsb' 0 8 = lo := by
  apply BitVec.eq_of_toNat_eq
  have hlo := lo.isLt
  rw [BitVec.extractLsb'_toNat, toNat_assembleAddr, Nat.shiftRight_zero]
  omega

@[simp] theorem high_assembleAddr (hi lo : Byte) : (assembleAddr hi lo).extractLsb' 8 8 = hi := by
  apply BitVec.eq_of_toNat_eq
  have hlo := lo.isLt
  have hhi := hi.isLt
  rw [BitVec.extractLsb'_toNat, toNat_assembleAddr, Nat.shiftRight_eq_div_pow]
  omega

@[simp] theorem assembleAddr_bytes (a : Addr16) :
    assembleAddr (a.extractLsb' 8 8) (a.extractLsb' 0 8) = a := by
  apply BitVec.eq_of_toNat_eq
  have ha := a.isLt
  rw [toNat_assembleAddr, BitVec.extractLsb'_toNat, BitVec.extractLsb'_toNat,
    Nat.shiftRight_eq_div_pow, Nat.shiftRight_zero]
  omega

/-- Every way the decoder can answer. -/
theorem decode_cases (bs : List Byte) :
    (bs = [] ∧ decode bs = .noOpcode) ∨
    (∃ op rest, bs = op :: rest ∧ bs.length < insnLen op ∧ decode bs = .truncated) ∨
    (∃ op rest i, bs = op :: rest ∧ i.len = insnLen op ∧ i.len ≤ bs.length ∧
      decode bs = .ok i i.len) := by
  cases bs with
  | nil => exact .inl ⟨rfl, rfl⟩
  | cons op rest =>
    right
    simp only [decode, insnLen]
    rcases hc : classify op with _ | ⟨d, s⟩ | d | ⟨_ | _, _ | _⟩ | (_ | _) | _ <;>
      rcases rest with _ | ⟨b1, _ | ⟨b2, rest⟩⟩ <;>
      simp [decodeOperands, Class.len, hc, Instr.len]

/-- What a decoded instruction says of the bytes it was decoded from. -/
theorem decode_ok {bs : List Byte} {i : Instr} {L : Nat} (h : decode bs = .ok i L) :
    ∃ op rest, bs = op :: rest ∧ L = i.len ∧ L = insnLen op ∧ L ≤ bs.length := by
  rcases decode_cases bs with ⟨_, h'⟩ | ⟨_, _, _, _, h'⟩ | ⟨op, rest, j, hb, hl, hle, h'⟩
  · rw [h] at h'; cases h'
  · rw [h] at h'; cases h'
  · rw [h] at h'
    cases h'
    exact ⟨op, rest, hb, rfl, hl, hle⟩

/-- What truncation says of the bytes. -/
theorem decode_truncated {bs : List Byte} (h : decode bs = .truncated) :
    ∃ op rest, bs = op :: rest ∧ bs.length < insnLen op := by
  rcases decode_cases bs with ⟨_, h'⟩ | ⟨op, rest, hb, hlt, _⟩ | ⟨_, _, _, _, _, _, h'⟩
  · rw [h] at h'; cases h'
  · exact ⟨op, rest, hb, hlt⟩
  · rw [h] at h'; cases h'

/-- The decoder looks at the instruction's own bytes only. -/
theorem decode_append {bs : List Byte} {i : Instr} {L : Nat} (h : decode bs = .ok i L)
    (rest : List Byte) : decode (bs ++ rest) = .ok i L := by
  cases bs with
  | nil => cases h
  | cons op bs =>
    simp only [decode, List.cons_append] at h ⊢
    rcases hc : classify op with _ | ⟨d, s⟩ | d | ⟨_ | _, _ | _⟩ | (_ | _) | _ <;>
      rw [hc] at h <;> rcases bs with _ | ⟨b1, _ | ⟨b2, bs⟩⟩ <;>
      simp_all [decodeOperands]

namespace Machine

/-- The window at an index inside the image starts with the byte there. -/
theorem Memory.window_cons {m : Memory} {i : Nat} {op : Byte} (h : m.read i = some op) :
    ∃ rest, m.window i = op :: rest ∧ rest.length = min (m.len - i) 3 - 1 := by
  have hb : m.bytes[i]? = some op := by rw [Memory.getElem?_bytes, h]
  obtain ⟨hi, rfl⟩ := List.getElem?_eq_some_iff.1 hb
  refine ⟨(m.bytes.drop (i + 1)).take 2, ?_, ?_⟩
  · rw [Memory.window_eq_take_drop, List.drop_eq_getElem_cons hi]
    rfl
  · have : i < m.len := by simpa using hi
    simp
    omega

/-- An index inside the image has a byte. -/
theorem Memory.read_of_lt {m : Memory} {i : Nat} (h : i < m.len) : ∃ op, m.read i = some op :=
  ⟨_, if_pos h⟩

/-- Every way `decodeAt` can answer inside the image (R84, R87). -/
theorem decodeAt_cases {m : Memory} {cur : Nat} {op : Byte} (h : m.read cur = some op) :
    (m.len - cur < insnLen op ∧ decodeAt m cur = .truncated) ∨
    (∃ i : Instr, i.len = insnLen op ∧ i.len ≤ m.len - cur ∧ decodeAt m cur = .ok i i.len) := by
  obtain ⟨rest, hw, hl⟩ := Memory.window_cons h
  have hlen : (m.window cur).length = min (m.len - cur) 3 := Memory.length_window m cur
  have h3 := insnLen_le op
  unfold decodeAt
  rcases decode_cases (m.window cur) with ⟨h0, _⟩ | ⟨op', r, hb, hlt, ht⟩ | ⟨op', r, i, hb, hi, hle, hk⟩
  · rw [hw] at h0; cases h0
  · rw [hw, List.cons.injEq] at hb
    obtain ⟨rfl, rfl⟩ := hb
    exact .inl ⟨by omega, ht⟩
  · rw [hw, List.cons.injEq] at hb
    obtain ⟨rfl, rfl⟩ := hb
    exact .inr ⟨i, hi, by omega, hk⟩

end Machine

end Sys2Proof
end

