-- ==== Sys2Proof/Laws/State.lean ====
section
/-!
SUPPORT. One lemma per field per update of the state, so that no later proof unfolds a record update.
-/
namespace Sys2Proof.Machine

@[simp] theorem State.emit_img (s : State) (d : Decoded) : (s.emit d).img = s.img := rfl
@[simp] theorem State.emit_cur (s : State) (d : Decoded) : (s.emit d).cur = s.cur := rfl
@[simp] theorem State.emit_ac (s : State) (d : Decoded) : (s.emit d).ac = s.ac := rfl
@[simp] theorem State.emit_fault (s : State) (d : Decoded) : (s.emit d).fault = s.fault := rfl
@[simp] theorem State.emit_lines (s : State) (d : Decoded) :
    (s.emit d).lines = s.lines ++ [⟨s.ac, d⟩] := rfl

@[simp] theorem State.advance_img (s : State) (L : Nat) : (s.advance L).img = s.img := rfl
@[simp] theorem State.advance_cur (s : State) (L : Nat) : (s.advance L).cur = s.cur + L := rfl
@[simp] theorem State.advance_ac (s : State) (L : Nat) : (s.advance L).ac = s.ac + 8 * L := rfl
@[simp] theorem State.advance_fault (s : State) (L : Nat) : (s.advance L).fault = s.fault := rfl
@[simp] theorem State.advance_lines (s : State) (L : Nat) : (s.advance L).lines = s.lines := rfl

@[simp] theorem State.takeTruncated_img (s : State) : s.takeTruncated.img = s.img := rfl
@[simp] theorem State.takeTruncated_cur (s : State) : s.takeTruncated.cur = s.cur := rfl
@[simp] theorem State.takeTruncated_ac (s : State) : s.takeTruncated.ac = s.ac := rfl
@[simp] theorem State.takeTruncated_fault (s : State) : s.takeTruncated.fault = some s.ac := rfl
@[simp] theorem State.takeTruncated_lines (s : State) : s.takeTruncated.lines = s.lines := rfl

@[simp] theorem passStart_img (bs : List Byte) : (passStart bs).img = Memory.ofBytes bs := rfl
@[simp] theorem passStart_cur (bs : List Byte) : (passStart bs).cur = 0 := rfl
@[simp] theorem passStart_ac (bs : List Byte) : (passStart bs).ac = 0 := rfl
@[simp] theorem passStart_fault (bs : List Byte) : (passStart bs).fault = none := rfl
@[simp] theorem passStart_lines (bs : List Byte) : (passStart bs).lines = [] := rfl

@[simp] theorem State.withFetchWord_cur (s : State) (nbits w : Nat) :
    (s.withFetchWord nbits w).cur = s.cur := rfl
@[simp] theorem State.withFetchWord_ac (s : State) (nbits w : Nat) :
    (s.withFetchWord nbits w).ac = s.ac := rfl
@[simp] theorem State.withFetchWord_fault (s : State) (nbits w : Nat) :
    (s.withFetchWord nbits w).fault = none := rfl
@[simp] theorem State.withFetchWord_lines (s : State) (nbits w : Nat) :
    (s.withFetchWord nbits w).lines = s.lines := rfl

/-- R83 with `MAX_INSN_LEN` written out. -/
theorem State.avail_eq (s : State) : s.avail = min (s.img.len - s.cur) 3 := rfl

/-! ### The phase, by the fields it is derived from (R17) -/

theorem State.phase_eq_run_iff (s : State) :
    s.phase = .run ↔ s.fault = none ∧ s.cur < s.img.len := by
  unfold State.phase
  cases s.fault with
  | none => by_cases h : s.cur < s.img.len <;> simp [h]
  | some a => simp

theorem State.phase_eq_done_iff (s : State) :
    s.phase = .done ↔ s.fault = none ∧ s.img.len ≤ s.cur := by
  unfold State.phase
  cases s.fault with
  | none =>
    by_cases h : s.cur < s.img.len
    · simp [h]
    · simp [h, Nat.not_lt.1 h]
  | some a => simp

theorem State.phase_eq_failed_iff (s : State) (a : Nat) :
    s.phase = .failed a ↔ s.fault = some a := by
  unfold State.phase
  cases s.fault with
  | none => by_cases h : s.cur < s.img.len <;> simp [h]
  | some b => simp

@[simp] theorem State.phase_takeTruncated (s : State) : s.takeTruncated.phase = .failed s.ac := rfl

theorem State.outcome_eq_none_iff (s : State) : s.outcome = none ↔ s.phase = .run := by
  unfold State.outcome
  cases s.phase <;> simp

end Sys2Proof.Machine
end

