-- ==== Sys2Proof/Laws/Ops.lean ====
section
/-!
SUPPORT. What `retire` can do, and that every meaning is `retire` of its instruction's line and length:
said once, cited instead of unfolding a meaning.
-/
namespace Sys2Proof.Machine

/-- Everything `retire` can answer. -/
theorem retire_cases (d : Decoded) (L : Nat) (s : State) :
    (s.phase = .done ∧ retire d L s = .fault .passDone) ∨
    (∃ a, s.phase = .failed a ∧ retire d L s = .fault .passFailed) ∨
    (s.phase = .run ∧ s.img.len - s.cur < L ∧ retire d L s = .next s.takeTruncated) ∨
    (s.phase = .run ∧ L ≤ s.img.len - s.cur ∧ retire d L s = .next ((s.emit d).advance L)) := by
  unfold retire
  cases hp : s.phase with
  | done => simp
  | failed a => simp
  | run =>
    by_cases h : s.img.len - s.cur < L
    · simp [h]
    · simp [h, Nat.not_lt.1 h]

/-- If `retire` answers a next state, what it is. -/
theorem retire_next {d : Decoded} {L : Nat} {s t : State} (h : retire d L s = .next t) :
    s.phase = .run ∧
      ((s.img.len - s.cur < L ∧ t = s.takeTruncated) ∨
        (L ≤ s.img.len - s.cur ∧ t = (s.emit d).advance L)) := by
  rcases retire_cases d L s with ⟨_, h'⟩ | ⟨_, _, h'⟩ | ⟨hp, hl, h'⟩ | ⟨hp, hl, h'⟩ <;>
    rw [h] at h' <;> cases h'
  · exact ⟨hp, .inl ⟨hl, rfl⟩⟩
  · exact ⟨hp, .inr ⟨hl, rfl⟩⟩

/-- Where enough bytes remain, `retire` emits the line and advances. -/
theorem retire_complete {d : Decoded} {L : Nat} {s : State} (hf : s.fault = none)
    (hc : s.cur < s.img.len) (hL : s.cur + L ≤ s.img.len) :
    retire d L s = .next ((s.emit d).advance L) := by
  have hp := (State.phase_eq_run_iff s).2 ⟨hf, hc⟩
  unfold retire
  rw [hp]
  exact if_neg (by omega)

/-- Where too few bytes remain, `retire` takes `Truncated`. -/
theorem retire_truncated {d : Decoded} {L : Nat} {s : State} (hf : s.fault = none)
    (hc : s.cur < s.img.len) (hL : s.img.len < s.cur + L) :
    retire d L s = .next s.takeTruncated := by
  have hp := (State.phase_eq_run_iff s).2 ⟨hf, hc⟩
  unfold retire
  rw [hp]
  exact if_pos (by omega)

/-- Every meaning is `retire` of the instruction's line and length. -/
theorem exec_eq_retire (i : Instr) (s : State) :
    exec i s = retire (Decoded.ofInstr i) i.len s := by
  cases i <;> rfl

@[simp] theorem Decoded.len_ofInstr (i : Instr) : (Decoded.ofInstr i).len = i.len := by
  cases i <;> rfl

end Sys2Proof.Machine
end

