-- ==== Sys2Proof/Laws/PerInstr.lean ====
section
/-!
SUPPORT. Families of facts about the instruction as syntax, one lemma per constructor.
-/
namespace Sys2Proof.Laws.EncodedLength

/-- The encoding of an instruction has the length of R82 and starts with an opcode byte whose length by
R80 is that. -/
def Statement (i : Instr) : Prop :=
  i.wf = true → (encode i).length = i.len ∧ ∃ op rest, encode i = op :: rest ∧ insnLen op = i.len

theorem nop : Statement .nop := fun _ => ⟨rfl, _, _, rfl, by decide⟩

theorem mov (d s : Reg) : Statement (.mov d s) :=
  fun _ => ⟨rfl, _, _, rfl, by revert d s; rintro (_ | _) (_ | _) <;> decide⟩

theorem mvi (d : Reg) (imm : Byte) : Statement (.mvi d imm) :=
  fun _ => ⟨rfl, _, [imm], rfl, by
    show insnLen (0b00#2 ++ d.field ++ 0b110#3) = 2
    cases d <;> decide⟩

theorem staxB : Statement .staxB := fun _ => ⟨rfl, _, _, rfl, by decide⟩

theorem staxD : Statement .staxD := fun _ => ⟨rfl, _, _, rfl, by decide⟩

theorem ldaxB : Statement .ldaxB := fun _ => ⟨rfl, _, _, rfl, by decide⟩

theorem ldaxD : Statement .ldaxD := fun _ => ⟨rfl, _, _, rfl, by decide⟩

theorem sta (a : Addr16) : Statement (.sta a) :=
  fun _ => ⟨rfl, 0x32#8, _, rfl, show insnLen 0x32#8 = 3 by decide⟩

theorem lda (a : Addr16) : Statement (.lda a) :=
  fun _ => ⟨rfl, 0x3A#8, _, rfl, show insnLen 0x3A#8 = 3 by decide⟩

theorem unknown (op : Byte) : Statement (.unknown op) := by
  intro h
  refine ⟨rfl, op, [], rfl, ?_⟩
  revert op
  decide +kernel

end Sys2Proof.Laws.EncodedLength
end

