-- ==== Sys2Proof/Laws/Step.lean ====
section
/-!
SUPPORT. Everything a step can do, and the packaged induction over steps.
-/
namespace Sys2Proof.Machine

/-- If a step answers a next state: either it decoded an instruction, emitted its line and advanced, or
it took `Truncated`. -/
theorem step_next {s t : State} (h : step s = .next t) :
    s.phase = .run ∧
      ((decodeAt s.img s.cur = .truncated ∧ t = s.takeTruncated) ∨
        ∃ i : Instr, decodeAt s.img s.cur = .ok i i.len ∧ i.len ≤ s.img.len - s.cur ∧
          t = (s.emit (Decoded.ofInstr i)).advance i.len) := by
  unfold step at h
  cases hp : s.phase with
  | done => rw [hp] at h; cases h
  | failed a => rw [hp] at h; cases h
  | run =>
    obtain ⟨op, hop⟩ := Memory.read_of_lt ((State.phase_eq_run_iff s).1 hp).2
    refine ⟨rfl, ?_⟩
    rcases decodeAt_cases hop with ⟨_, ht⟩ | ⟨i, _, hle, hk⟩
    · simp only [hp, ht] at h
      cases h
      exact .inl ⟨ht, rfl⟩
    · simp only [hp, hk, exec_eq_retire] at h
      rcases retire_next h with ⟨_, ⟨hlt, _⟩ | ⟨_, rfl⟩⟩
      · omega
      · exact .inr ⟨i, hk, hle, rfl⟩

/-- In phase Run a step is taken. -/
theorem step_of_run {s : State} (hp : s.phase = .run) : ∃ t, step s = .next t := by
  obtain ⟨hf, hlt⟩ := (State.phase_eq_run_iff s).1 hp
  obtain ⟨op, hop⟩ := Memory.read_of_lt hlt
  rcases decodeAt_cases hop with ⟨_, ht⟩ | ⟨i, _, hle, hk⟩
  · exact ⟨s.takeTruncated, by simp [step, hp, ht]⟩
  · exact ⟨(s.emit (Decoded.ofInstr i)).advance i.len, by
      simp only [step, hp, hk, exec_eq_retire]
      exact retire_complete hf hlt (by omega)⟩

/-- What holds of `s` and is kept by every step holds of every state reached from `s`. -/
theorem Reaches.invariant {P : State → Prop} (keep : ∀ s t, P s → step s = .next t → P t)
    {s t : State} (h : Reaches s t) (hs : P s) : P t := by
  induction h with
  | refl => exact hs
  | tail _ hstep ih => exact keep _ _ ih hstep

theorem Reaches.trans {s t u : State} (h : Reaches s t) (h' : Reaches t u) : Reaches s u := by
  induction h' with
  | refl => exact h
  | tail _ hstep ih => exact .tail ih hstep

theorem Reaches.single {s t : State} (h : step s = .next t) : Reaches s t := .tail (.refl s) h

/-- The loop only takes steps. -/
theorem loop_reaches : ∀ (k : Nat) (s : State), Reaches s (loop k s)
  | 0, s => .refl s
  | k + 1, s => by
    unfold loop
    split
    · rename_i t h
      exact (Reaches.single h).trans (loop_reaches k t)
    · exact .refl s
    · exact .refl s

end Sys2Proof.Machine
end

