-- ==== Sys2Proof/Tests/Slice0.lean ====
section
/-!
SUPPORT. Small tests. Expected values come from spec/95_test_vectors.md (vector named at each test) or
from the encodings of spec/30_encoding.md, written out bit by bit; none is the model's own answer.
-/
namespace Sys2Proof.Tests
open Sys2Proof.Machine

/-! ### WellFormed: ill-formed terms are refused, well-formed ones are not -/

theorem test_wf_refuses_unknown_of_nop_byte : (Instr.unknown 0x00).wf = false := by decide

theorem test_wf_refuses_unknown_of_mov_byte : (Instr.unknown 0x76).wf = false := by decide

theorem test_wf_refuses_unknown_of_sta_byte : (Instr.unknown 0x32).wf = false := by decide

theorem test_wf_takes_listed_byte : (Instr.unknown 0x08).wf = true := by decide

/-- R60's count: 177 byte values. -/
theorem test_177_unrecognised_bytes :
    ((List.range 256).filter fun k => unrecognised (BitVec.ofNat 8 k)).length = 177 := by
  decide +kernel

/-! ### Decoding: words written out from R48 and R54 to R57 -/

theorem test_decode_nop : decode [0b00000000] = .ok .nop 1 := by decide

/-- V1: 0x47 = 01 000 111. -/
theorem test_decode_mov : decode [0b01000111] = .ok (.mov .B .A) 1 := by decide

/-- V1: 0x76 = 01 110 110 is MOV Memory Memory (D22). -/
theorem test_decode_mov_memory_memory : decode [0b01110110] = .ok (.mov .M .M) 1 := by decide

/-- V3: 36 42. -/
theorem test_decode_mvi : decode [0b00110110, 0b01000010] = .ok (.mvi .M 0x42) 2 := by decide

theorem test_decode_staxB : decode [0b00000010] = .ok .staxB 1 := by decide

theorem test_decode_staxD : decode [0b00010010] = .ok .staxD 1 := by decide

theorem test_decode_ldaxB : decode [0b00001010] = .ok .ldaxB 1 := by decide

theorem test_decode_ldaxD : decode [0b00011010] = .ok .ldaxD 1 := by decide

/-- V3: 32 00 01. -/
theorem test_decode_sta : decode [0b00110010, 0b00000000, 0b00000001] = .ok (.sta 0x0100) 3 := by decide

/-- V3: 3A 34 12. -/
theorem test_decode_lda : decode [0b00111010, 0b00110100, 0b00010010] = .ok (.lda 0x1234) 3 := by decide

/-- V1: 0xFE, and V4a: its following bytes are not its operands. -/
theorem test_decode_unknown : decode [0b11111110, 0, 0] = .ok (.unknown 0xFE) 1 := by decide

/-- V2: `trunc` of STA is 1 for two bytes. -/
theorem test_decode_sta_truncated : decode [0b00110010, 0b00000001] = .truncated := by decide

/-- V1's whole table as port values, R26: `cls`, `dst`, `src`, `dirn`, `pair`, `len`. -/
theorem test_stage_ports_ldaxD :
    let o := stage ⟨0x1A, 0xEF, 0xBE, 3⟩
    (o.cls, o.dst, o.src, o.dirn, o.pair, o.len, o.trunc) = (0b011, 3, 2, 1, 1, 1, 0) := by decide

theorem test_stage_ports_lda :
    let o := stage ⟨0x3A, 0xEF, 0xBE, 3⟩
    (o.cls, o.dst, o.src, o.dirn, o.pair, o.len, o.trunc) = (0b100, 7, 2, 1, 0, 3, 0) ∧
      o.addr16 = 0xBEEF := by decide

/-! ### Whole passes: the worked examples W1 to W8 and the programs P1 to P4 -/

/-- The text and outcome of a pass under the default parameters. -/
def textOf (img : List Byte) : String × Option PassOutcome :=
  (outputText Config.default (run img).1, (run img).2)

theorem test_w2_single_byte_families :
    textOf [0x47, 0x02, 0xFF, 0x00] =
      ("0x00000000\tMOV B A\n0x00000008\tSTAX B\n0x00000010\tUNKNOWN\n0x00000018\tNOP\n", some .done) := by
  decide

theorem test_w4_address_gap :
    textOf [0x00, 0x32, 0xEF, 0xBE, 0x00] =
      ("0x00000000\tNOP\n0x00000008\tSTA 0xbeef\n0x00000020\tNOP\n", some .done) := by decide

theorem test_w7e_truncated_after_nop :
    textOf [0x00, 0x3A, 0x12] = ("0x00000000\tNOP\n", some (.failed 8)) := by decide

theorem test_w8_empty : textOf [] = ("", some .done) := by decide

theorem test_v4b_mvi_literal_is_not_opcode :
    textOf [0x3E, 0x3E, 0x3E] = ("0x00000000\tMVI A 0x3e\n", some (.failed 0x10)) := by decide

theorem test_p2_indirect_forms :
    textOf [0x0A, 0x12, 0x1A, 0x02, 0x36, 0xFF, 0x76] =
      ("0x00000000\tLDAX B\n0x00000008\tSTAX D\n0x00000010\tLDAX D\n0x00000018\tSTAX B\n" ++
        "0x00000020\tMVI Memory 0xff\n0x00000030\tMOV Memory Memory\n", some .done) := by decide

/-- P4, as structured lines. -/
theorem test_p4_mixed_lengths :
    run [0x06, 0x0A, 0x0E, 0x00, 0x79, 0x3A, 0xEF, 0xBE, 0x7E, 0x08, 0x3E] =
      ([⟨0, .MVI .B 0x0A⟩, ⟨0x10, .MVI .C 0⟩, ⟨0x20, .MOV .A .C⟩, ⟨0x28, .LDA 0xBEEF⟩,
        ⟨0x40, .MOV .A .M⟩, ⟨0x48, .UNKNOWN⟩], some (.failed 0x50)) := by decide

theorem test_p4_disassemble :
    disassemble 0 [0x06, 0x0A, 0x0E, 0x00, 0x79, 0x3A, 0xEF, 0xBE, 0x7E, 0x08, 0x3E] =
      ([⟨0, .MVI .B 0x0A⟩, ⟨0x10, .MVI .C 0⟩, ⟨0x20, .MOV .A .C⟩, ⟨0x28, .LDA 0xBEEF⟩,
        ⟨0x40, .MOV .A .M⟩, ⟨0x48, .UNKNOWN⟩], .failed 0x50) := by decide

/-! ### The opcode table's word numbering, and a first step after reset -/

theorem test_table_word_sta : decodeTableWord 24 0xBEEF32 = some (.sta 0xBEEF) := by decide

theorem test_table_word_above_nbits_is_zero : decodeTableWord 8 0xFF06 = some (.mvi .B 0) := by decide

/-- The next state of an outcome, if it is one. -/
def nextState : Host.Outcome State Fault Refusal → Option State
  | .next s => some s
  | .fault _ => none
  | .refused _ => none

theorem test_fetch_word_runs :
    nextState (step (State.reset.withFetchWord 24 0x12343A)) =
      some ⟨Memory.ofBytes [0x3A, 0x34, 0x12], 3, 24, none, [⟨0, .LDA 0x1234⟩]⟩ := by decide

/-- V5. -/
theorem test_hex : (hex 0 8, hex 24 8, hex 0xBEEF 4, hex 5 2) =
    ("0x00000000", "0x00000018", "0xbeef", "0x05") := by decide

/-! ### Witnesses: for each statement with hypotheses, a concrete state and operands that meet them all,
at a boundary of their ranges for each clause. A statement not named here has no hypothesis, or one a
theorem above meets. -/

/-- A state of a pass over `img` with the cursor at `cur`. -/
def stateAt (img : List Byte) (cur : Nat) : State :=
  { passStart img with cur := cur, ac := 8 * cur }

theorem witness_DecodeOfEncode : (Instr.unknown 0x01).wf = true ∧ (Instr.unknown 0xFF).wf = true := by
  decide

theorem witness_EncodeOfDecode : decode [0x3A, 0xFF, 0xFF] = .ok (.lda 0xFFFF) 3 := by decide

/-- The one-byte rows and StepRunsTheDecodedInstruction: the last byte of the image. -/
theorem witness_one_byte_rows :
    (stateAt [0x3E, 0x00, 0x7F] 2).fault = none ∧
      (stateAt [0x3E, 0x00, 0x7F] 2).cur < (stateAt [0x3E, 0x00, 0x7F] 2).img.len ∧
      1 ≤ (1 : BitVec 2).toNat ∧
      decodeAt (stateAt [0x3E, 0x00, 0x7F] 2).img 2 = .ok (.mov .A .A) 1 := by decide

/-- The two direct opcodes, and a byte of the image to spare. -/
theorem witness_NopRule :
    classify 0x32 = .direct .Store ∧ classify 0x3A = .direct .Load ∧
      (stateAt [0x00] 0).fault = none ∧ (stateAt [0x00] 0).cur < (stateAt [0x00] 0).img.len := by decide

theorem witness_MovRule : topField 0x40 = 0b01 ∧ topField 0x7F = 0b01 := by decide

/-- Completion with exactly two bytes left, truncation with exactly one. -/
theorem witness_MviRule :
    (topField 0x06 = 0b00 ∧ srcField 0x06 = 0b110) ∧ (topField 0x3E = 0b00 ∧ srcField 0x3E = 0b110) ∧
      (stateAt [0x00, 0x06, 0xFF] 1).fault = none ∧
      (stateAt [0x00, 0x06, 0xFF] 1).cur + 2 ≤ (stateAt [0x00, 0x06, 0xFF] 1).img.len ∧
      (stateAt [0x00, 0x3E] 1).img.read (stateAt [0x00, 0x3E] 1).cur = some 0x3E ∧
      (stateAt [0x00, 0x3E] 1).cur + 1 = (stateAt [0x00, 0x3E] 1).img.len ∧
      2 ≤ (2 : BitVec 2).toNat := by decide

/-- STA and LDA: completion with exactly three bytes left, truncation with two and with one. -/
theorem witness_StaRule_LdaRule :
    (stateAt [0x32, 0xEF, 0xBE] 0).cur + 3 ≤ (stateAt [0x32, 0xEF, 0xBE] 0).img.len ∧
      (stateAt [0x32, 0xEF] 0).img.read (stateAt [0x32, 0xEF] 0).cur = some 0x32 ∧
      (stateAt [0x32, 0xEF] 0).img.len ≤ (stateAt [0x32, 0xEF] 0).cur + 2 ∧
      (stateAt [0x00, 0x3A] 1).img.read (stateAt [0x00, 0x3A] 1).cur = some 0x3A ∧
      (stateAt [0x00, 0x3A] 1).img.len ≤ (stateAt [0x00, 0x3A] 1).cur + 2 ∧
      (stateAt [0x00, 0x3A] 1).fault = none := by decide

theorem witness_UnknownRule :
    unrecognised 0x3F = true ∧ unrecognised 0x80 = true ∧
      (stateAt [0x80] 0).fault = none ∧ (stateAt [0x80] 0).img.read 0 = some 0x80 := by decide

theorem witness_SlicerAndRegisterOperands :
    decode [0x76] = .ok (.mov .M .M) 1 ∧ decode [0x36, 0x00] = .ok (.mvi .M 0x00) 2 := by decide

/-- Two inputs with the same opcode and different other ports, and classes with direction and pair 0. -/
theorem witness_ClassCodesAndPortDependence :
    (⟨0x3E, 1, 2, 3⟩ : StageIn).op = (⟨0x3E, 4, 5, 3⟩ : StageIn).op ∧
      (stage ⟨0x76, 0, 0, 1⟩).cls ≠ 0b011 ∧ (stage ⟨0x76, 0, 0, 1⟩).cls ≠ 0b100 := by decide

/-- Different images and cursors, same instruction bytes; and both truncated with different operands. -/
theorem witness_DecodeReadsItsOwnBytesOnly :
    let m := Memory.ofBytes [0x06, 0x0A, 0x01]
    let m' := Memory.ofBytes [0x00, 0x06, 0x0A]
    m.read 0 = some 0x06 ∧ m'.read 1 = some 0x06 ∧
      (m.len - 0 < insnLen 0x06 ↔ m'.len - 1 < insnLen 0x06) ∧
      (∀ k < insnLen 0x06, m.read (0 + k) = m'.read (1 + k)) ∧
      (Memory.ofBytes [0x32, 0x01]).len - 0 < insnLen 0x32 ∧
      (Memory.ofBytes [0x32]).len - 0 < insnLen 0x32 := by decide

theorem witness_DecodeAtFollowsThePseudocode :
    (Memory.ofBytes [0x3A, 0x34, 0x12]).read 0 = some 0x3A ∧
      insnLen 0x3A ≤ (Memory.ofBytes [0x3A, 0x34, 0x12]).len - 0 := by decide

theorem witness_OperandAssembly :
    let m := Memory.ofBytes [0x06, 0xFF, 0x32, 0xEF, 0xBE]
    m.read 0 = some 0x06 ∧ classify 0x06 = .mvi .B ∧ m.read 1 = some 0xFF ∧
      m.read 2 = some 0x32 ∧ classify 0x32 = .direct .Store ∧ m.read 3 = some 0xEF ∧
      m.read 4 = some 0xBE := by decide

theorem witness_TruncationDetectorIsExact :
    (stateAt [0x00, 0x32, 0x01] 1).fault = none ∧
      (stateAt [0x00, 0x32, 0x01] 1).img.read (stateAt [0x00, 0x32, 0x01] 1).cur = some 0x32 := by
  decide

/-- The bytes of an instruction standing at the end of the image. -/
theorem witness_EncodedInstructionAtCursorRuns :
    let s := stateAt [0x00, 0x3A, 0x34, 0x12] 1
    let i := Instr.lda 0x1234
    i.wf = true ∧ s.fault = none ∧
      ∀ k < (encode i).length, s.img.read (s.cur + k) = (encode i)[k]? := by decide

/-- A next state with the line, and one with the fault record. -/
theorem witness_FrameOfEveryInstruction :
    nextState (exec (.sta 0x0100) (stateAt [0x32, 0x00, 0x01] 0)) =
        some { stateAt [0x32, 0x00, 0x01] 3 with lines := [⟨0, .STA 0x0100⟩] } ∧
      nextState (exec (.sta 0x0100) (stateAt [0x32, 0x00] 0)) =
        some { stateAt [0x32, 0x00] 0 with fault := some 0 } := by decide

/-- The statements about a step (AddressCounterAdvancesByEightPerByte, CursorAdvancesByTheLength,
OneLinePerDecodedInstruction, CursorStaysInTheImage, AddressCounterNeverDecreases): a decoding step. -/
theorem witness_decoding_step :
    step (stateAt [0x3E, 0x42] 0) =
        .next { stateAt [0x3E, 0x42] 2 with lines := [⟨0, .MVI .A 0x42⟩] } ∧
      decodeAt (stateAt [0x3E, 0x42] 0).img 0 = .ok (.mvi .A 0x42) 2 := ⟨rfl, by decide⟩

/-- The same statements, OnlyMviStaLdaAreTruncated, FaultRecordIsWrittenOnce and
TruncatedEntryRecordsTheAddress: a truncating step. -/
theorem witness_truncating_step :
    step (stateAt [0x00, 0x3E] 1) = .next { stateAt [0x00, 0x3E] 1 with fault := some 8 } ∧
      decodeAt (stateAt [0x00, 0x3E] 1).img 1 = .truncated := ⟨rfl, by decide⟩

theorem witness_TerminalPhasesTakeNoStep :
    (stateAt [0x00] 1).fault = none ∧ (stateAt [0x00] 1).cur = (stateAt [0x00] 1).img.len ∧
      (stateAt [0x3E] 0).takeTruncated.fault = some 0 ∧
      (stateAt [0x00] 0).fault = none ∧ (stateAt [0x00] 0).cur < (stateAt [0x00] 0).img.len := by decide

theorem witness_RunPhaseAlwaysSteps :
    (stateAt [0xFF] 0).fault = none ∧ (stateAt [0xFF] 0).cur < (stateAt [0xFF] 0).img.len := by decide

/-- MVI with one byte left, STA and LDA with two and with one. -/
theorem witness_TruncatedEntryRecordsTheAddress :
    (stateAt [0x3E] 0).cur < (stateAt [0x3E] 0).img.len ∧
      (stateAt [0x3E] 0).img.len < (stateAt [0x3E] 0).cur + 2 ∧
      (stateAt [0x32, 0x01] 0).img.len < (stateAt [0x32, 0x01] 0).cur + 3 := by decide

/-- A state reached from the start of a pass with a line emitted: the statements about `Reaches`. -/
theorem witness_reached_state :
    Reaches (passStart [0x3E, 0x42]) { stateAt [0x3E, 0x42] 2 with lines := [⟨0, .MVI .A 0x42⟩] } ∧
      ({ stateAt [0x3E, 0x42] 2 with lines := [⟨0, .MVI .A 0x42⟩] } : State).lines[0]? =
        some ⟨0, .MVI .A 0x42⟩ := ⟨.single rfl, by decide⟩

theorem witness_StepKeepsTheInvariant :
    (passStart [0x3E, 0x42]).Inv ∧
      step (passStart [0x3E, 0x42]) =
        .next { stateAt [0x3E, 0x42] 2 with lines := [⟨0, .MVI .A 0x42⟩] } :=
  ⟨⟨by decide, by decide, by decide, fun _ h => (nomatch h), rfl⟩, rfl⟩

theorem witness_LinesComeFromTheImage :
    (passStart [0x00]).ac = 8 * (passStart [0x00]).cur ∧ (passStart [0x00]).LinesFromImage ∧
      step (passStart [0x00]) = .next { stateAt [0x00] 1 with lines := [⟨0, .NOP⟩] } :=
  ⟨rfl, fun _ h => (nomatch h), rfl⟩

theorem witness_OperandBytesAreNeverClassified :
    Reaches (passStart [0x3E, 0x42]) (passStart [0x3E, 0x42]) ∧
      decodeAt (passStart [0x3E, 0x42]).img (passStart [0x3E, 0x42]).cur = .ok (.mvi .A 0x42) 2 :=
  ⟨.refl _, by decide⟩

theorem witness_pass_results :
    (run [0x00]).1[0]? = some ⟨0, .NOP⟩ ∧ (run [0x00]).2 = some .done ∧
      (run [0x00, 0x3E]).2 = some (.failed 8) := by decide

theorem witness_OneByteInstructionImages : ∀ b ∈ [0x00#8, 0x76#8, 0x1A#8, 0xC3#8], insnLen b = 1 := by
  decide

/-- The bound itself, and one byte more; an old state in phase Run. -/
theorem witness_StartRespectsTheImageBound :
    ([0x00#8, 0x00#8] : List Byte).length ≤ (⟨2, 8, 2⟩ : Config).maxImageLen ∧
      (⟨1, 8, 2⟩ : Config).maxImageLen < ([0x00#8, 0x00#8] : List Byte).length ∧
      (passStart [0x3E]).phase = .run := by decide

theorem witness_HostKeepsLinesAcrossPasses :
    Session.react Config.default (.start [0x00]) ⟨[⟨0, .NOP⟩], [.done], stateAt [0x3E, 0x42] 0⟩ =
        .next ⟨[⟨0, .NOP⟩], [.done], passStart [0x00]⟩ ∧
      Session.react Config.default .step ⟨[], [], passStart [0x00]⟩ =
        .next ⟨[⟨0, .NOP⟩], [.done], { stateAt [0x00] 1 with lines := [⟨0, .NOP⟩] }⟩ := by
  constructor <;> rfl

theorem witness_InstancesAreIndependent :
    stepInstance 1 [passStart [0xFF], passStart [0x00]] =
        .next [passStart [0xFF], { stateAt [0x00] 1 with lines := [⟨0, .NOP⟩] }] ∧
      (0 : Nat) ≠ 1 := ⟨rfl, by decide⟩

/-- R5's defaults satisfy R19's relation between the parameters. -/
theorem witness_AddressWidthIsStable :
    Config.default.AddressesFit ∧ 1 ≤ Config.default.addrHexWidth ∧
      ([0x00#8] : List Byte).length ≤ Config.default.maxImageLen ∧ ⟨0, .NOP⟩ ∈ (run [0x00]).1 :=
  ⟨by norm_num [Config.AddressesFit, Config.default], by decide,
    by norm_num [Config.default], by decide⟩

theorem witness_RenderingIsInjective :
    mnemonic Config.default .NOP = mnemonic Config.default .NOP ∧
      render Config.default ⟨8, .UNKNOWN⟩ = render Config.default ⟨8, .UNKNOWN⟩ := ⟨rfl, rfl⟩

end Sys2Proof.Tests
end

section
/-!
PROOFS. The state of a pass (10_state.md R13 to R16, R22, R28): what one step does to each field, the
same of every state reached, and the obligations that say so.
-/
namespace Sys2Proof.Machine

/-! ### What a step does to each field -/

theorem step_img {s t : State} (h : step s = .next t) : t.img = s.img := by
  obtain ⟨_, ⟨_, rfl⟩ | ⟨i, _, _, rfl⟩⟩ := step_next h
  · exact s.takeTruncated_img
  · simp

theorem step_cur_le_len {s t : State} (h : step s = .next t) : t.cur ≤ t.img.len := by
  obtain ⟨hrun, ⟨_, rfl⟩ | ⟨i, _, hle, rfl⟩⟩ := step_next h
  · exact ((State.phase_eq_run_iff s).1 hrun).2.le
  · have hlt := ((State.phase_eq_run_iff s).1 hrun).2
    simp only [State.advance_cur, State.emit_cur, State.advance_img, State.emit_img]
    omega

theorem step_cur_le {s t : State} (h : step s = .next t) : s.cur ≤ t.cur := by
  obtain ⟨_, ⟨_, rfl⟩ | ⟨i, _, _, rfl⟩⟩ := step_next h
  · exact s.takeTruncated_cur.ge
  · simp

/-- R91: only a decoded instruction moves the cursor, by its length. -/
theorem step_cur_of_ne {s t : State} (h : step s = .next t) (hne : t.cur ≠ s.cur) :
    ∃ i L, decodeAt s.img s.cur = .ok i L ∧ t.cur = s.cur + L := by
  obtain ⟨_, ⟨_, rfl⟩ | ⟨i, hdec, _, rfl⟩⟩ := step_next h
  · exact absurd s.takeTruncated_cur hne
  · exact ⟨i, i.len, hdec, by simp⟩

/-- R90, R91: the address counter moves by 8 for each byte the cursor moves. -/
theorem step_ac {s t : State} (h : step s = .next t) : t.ac = s.ac + 8 * (t.cur - s.cur) := by
  obtain ⟨_, ⟨_, rfl⟩ | ⟨i, _, _, rfl⟩⟩ := step_next h
  · simp
  · simp

theorem step_ac_le {s t : State} (h : step s = .next t) : s.ac ≤ t.ac :=
  step_ac h ▸ Nat.le_add_right _ _

theorem step_lines_prefix {s t : State} (h : step s = .next t) : s.lines <+: t.lines := by
  obtain ⟨_, ⟨_, rfl⟩ | ⟨i, _, _, rfl⟩⟩ := step_next h
  · exact List.prefix_rfl
  · exact List.prefix_append _ _

/-! ### The bytes the emitted lines stand for -/

/-- The cursor is at the first byte that no emitted line covers (R13). -/
def State.CursorAfterLines (s : State) : Prop :=
  s.cur = (s.lines.map fun l => l.instr.len).sum

theorem passStart_cursorAfterLines (img : List Byte) : (passStart img).CursorAfterLines := rfl

theorem step_keeps_cursorAfterLines {s t : State} (hs : s.CursorAfterLines)
    (h : step s = .next t) : t.CursorAfterLines := by
  obtain ⟨_, ⟨_, rfl⟩ | ⟨i, _, _, rfl⟩⟩ := step_next h
  · exact hs
  · unfold State.CursorAfterLines at hs ⊢
    simp [hs]

/-! ### States reached by steps -/

/-- A preorder that holds between the ends of each step holds between the ends of a run. -/
theorem Reaches.relate {R : State → State → Prop} (refl : ∀ s, R s s)
    (trans : ∀ s t u, R s t → R t u → R s u) (hstep : ∀ s t, step s = .next t → R s t)
    {s t : State} (h : Reaches s t) : R s t :=
  h.invariant (P := R s) (fun t u hst htu => trans s t u hst (hstep t u htu)) (refl s)

theorem Reaches.img_eq {s t : State} (h : Reaches s t) : t.img = s.img :=
  h.invariant (P := fun t => t.img = s.img) (fun _ _ ht hs => (step_img hs).trans ht) rfl

theorem Reaches.cur_le {s t : State} (h : Reaches s t) : s.cur ≤ t.cur :=
  h.relate (R := fun s t => s.cur ≤ t.cur) (fun _ => le_rfl) (fun _ _ _ => le_trans)
    fun _ _ => step_cur_le

theorem Reaches.ac_le {s t : State} (h : Reaches s t) : s.ac ≤ t.ac :=
  h.relate (R := fun s t => s.ac ≤ t.ac) (fun _ => le_rfl) (fun _ _ _ => le_trans)
    fun _ _ => step_ac_le

theorem Reaches.lines_prefix {s t : State} (h : Reaches s t) : s.lines <+: t.lines :=
  h.relate (R := fun s t => s.lines <+: t.lines) (fun _ => List.prefix_rfl)
    (fun _ _ _ => List.IsPrefix.trans) fun _ _ => step_lines_prefix

/-- R13: `cur ≤ n` in every state of a pass. -/
theorem Reaches.cur_le_length {img : List Byte} {t : State} (h : Reaches (passStart img) t) :
    t.cur ≤ img.length := by
  have hle : t.cur ≤ t.img.len :=
    h.invariant (P := fun t => t.cur ≤ t.img.len) (fun _ _ _ => step_cur_le_len) (Nat.zero_le _)
  simpa [h.img_eq] using hle

theorem Reaches.cursorAfterLines {img : List Byte} {t : State} (h : Reaches (passStart img) t) :
    t.CursorAfterLines :=
  h.invariant (fun _ _ => step_keeps_cursorAfterLines) (passStart_cursorAfterLines img)

/-! ### The obligations -/

/-- Settles O36: the step lemmas on the cursor, carried along the run. -/
theorem cursorStaysInTheImage : Obligations.CursorStaysInTheImage :=
  ⟨passStart_cur, fun _ _ h => h.cur_le_length, fun _ _ h => h.cur_le,
    fun _ _ => step_cur_of_ne, fun _ _ h => h.cursorAfterLines⟩

/-- Settles O37: the address counter follows the cursor (`step_ac`), which does not retreat. -/
theorem addressCounterNeverDecreases : Obligations.AddressCounterNeverDecreases :=
  ⟨passStart_ac, fun _ _ h => h.ac_le, fun _ _ => step_ac⟩

/-- Settles O38: each step only appends (`step_lines_prefix`), so along a run every line keeps its
place. -/
theorem linesAreAppendOnly : Obligations.LinesAreAppendOnly := by
  refine ⟨passStart_lines, fun _ _ h => h.lines_prefix, fun s t k l h hk => ?_⟩
  obtain ⟨hlt, rfl⟩ := List.getElem?_eq_some_iff.1 hk
  exact List.prefix_iff_getElem?.1 h.lines_prefix k hlt

/-- Settles O15: `Reg.field` and `Reg.ofField` are inverse to each other, and the two lists are
evaluated. -/
theorem registerIdentifiersInOrder : Obligations.RegisterIdentifiersInOrder := by
  refine ⟨by decide, fun r => ⟨r.field, Reg.ofField_field r, fun k hk => ?_⟩, by decide⟩
  rw [← hk, Reg.field_ofField]

/-- Settles O51: every field by its own start lemma; the image reads back as the bytes it was
made from. -/
theorem startValues : Obligations.StartValues := fun img =>
  ⟨passStart_cur img, passStart_ac img, passStart_fault img, passStart_lines img,
    Memory.bytes_ofBytes img, Memory.len_ofBytes img, rfl⟩

end Sys2Proof.Machine
end

section
/-!
PROOFS. The encoding (30_encoding.md R47, R50, R52, R53, 41_length_operands.md R79): the slicer's fields,
what a decoded instruction says of its opcode byte, and where its operands stand in the image.
-/
namespace Sys2Proof

/-! ### The slicer's fields -/

/-- R47: `op[5:3]` by a shift and a mask. -/
theorem toNat_dstField (op : Byte) : (dstField op).toNat = (op >>> 3 &&& 0b111#8).toNat := by
  rw [dstField, BitVec.extractLsb'_toNat, BitVec.toNat_and, BitVec.toNat_ushiftRight]
  exact (Nat.and_two_pow_sub_one_eq_mod _ 3).symm

/-- R47: `op[2:0]` by a mask. -/
theorem toNat_srcField (op : Byte) : (srcField op).toNat = (op &&& 0b111#8).toNat := by
  rw [srcField, BitVec.extractLsb'_toNat, BitVec.toNat_and, Nat.shiftRight_zero]
  exact (Nat.and_two_pow_sub_one_eq_mod _ 3).symm

@[simp] theorem dstField_append (t : BitVec 2) (d s : RegField) : dstField (t ++ d ++ s) = d := by
  revert t d s; decide

@[simp] theorem srcField_append (t : BitVec 2) (d s : RegField) : srcField (t ++ d ++ s) = s := by
  revert t d s; decide

/-- The register operands of MOV are those of the opcode's two fields (R50, R79). -/
theorem operands_of_classify_mov {op : Byte} {d s : Reg} (h : classify op = .mov d s) :
    d = Reg.ofField (dstField op) ∧ s = Reg.ofField (srcField op) := by
  rw [classify_mov h]; simp

/-- The register operand of MVI is that of the opcode's first field (R50, R79). -/
theorem operand_of_classify_mvi {op : Byte} {d : Reg} (h : classify op = .mvi d) :
    d = Reg.ofField (dstField op) := by
  rw [classify_mvi h]; simp

/-! ### What a decoded instruction says of its opcode byte -/

/-- The class an instruction is decoded from; `decode_ok_classify` ties it to the decoder. -/
def Instr.cls : Instr → Class
  | .nop => .nop
  | .mov d s => .mov d s
  | .mvi d _ => .mvi d
  | .staxB => .ind .Store .B
  | .staxD => .ind .Store .D
  | .ldaxB => .ind .Load .B
  | .ldaxD => .ind .Load .D
  | .sta _ => .direct .Store
  | .lda _ => .direct .Load
  | .unknown _ => .unk

/-- The class of a decoded instruction is the classifier's answer for the opcode byte, and `unknown`
keeps that byte. -/
theorem decode_ok_classify {op : Byte} {rest : List Byte} {i : Instr} {L : Nat}
    (h : decode (op :: rest) = .ok i L) :
    classify op = i.cls ∧ ∀ op', i = .unknown op' → op' = op := by
  rw [decode] at h
  generalize classify op = c at h ⊢
  -- one case per arm of the operand assembly: the answer names the instruction, or is `truncated`
  unfold decodeOperands at h
  split at h <;> cases h <;> simp [Instr.cls]

namespace Machine

/-! ### Operands in the image -/

/-- The window is the bytes that are there among the three from the cursor on (R26). -/
theorem Memory.window_eq_toList (m : Memory) (i : Nat) :
    m.window i = (m.read i).toList ++ (m.read (i + 1)).toList ++ (m.read (i + 2)).toList := by
  rw [Memory.window, show List.range maxInsnLen = [0, 1, 2] from rfl]
  cases h0 : m.read i <;> cases h1 : m.read (i + 1) <;> cases h2 : m.read (i + 2) <;>
    simp [h0, h1, h2]

/-- R52: the literal is the byte after the opcode. -/
theorem decodeAt_mvi {m : Memory} {cur : Nat} {op imm : Byte} {d : Reg} (hop : m.read cur = some op)
    (hc : classify op = .mvi d) (himm : m.read (cur + 1) = some imm) :
    decodeAt m cur = .ok (.mvi d imm) 2 := by
  simp [decodeAt, Memory.window_eq_toList, hop, himm, decode, hc, decodeOperands]

/-- The instruction of a direct opcode's direction; `decodeAt_direct` ties it to the decoder. -/
def directInstr : Dir → Addr16 → Instr
  | .Store => .sta
  | .Load => .lda

/-- R53: the address is the second byte after the opcode above the first. -/
theorem decodeAt_direct {m : Memory} {cur : Nat} {op lo hi : Byte} {dir : Dir}
    (hop : m.read cur = some op) (hc : classify op = .direct dir)
    (hlo : m.read (cur + 1) = some lo) (hhi : m.read (cur + 2) = some hi) :
    decodeAt m cur = .ok (directInstr dir (assembleAddr hi lo)) 3 := by
  cases dir <;>
    simp [decodeAt, Memory.window_eq_toList, hop, hlo, hhi, decode, hc, decodeOperands, directInstr]

/-! ### The obligations -/

/-- Settles O16: the fields as shifts and masks; every decoded instruction goes back to the class of its
opcode (`decode_ok_classify`), and the class to the fields. -/
theorem slicerAndRegisterOperands : Obligations.SlicerAndRegisterOperands := by
  refine ⟨fun i => ⟨toNat_dstField i.op, toNat_srcField i.op⟩, fun op rest d s L h => ?_,
    fun op rest d imm L h => ?_, fun op rest i L h => ?_, rfl⟩
  · exact operands_of_classify_mov (decode_ok_classify h).1
  · exact operand_of_classify_mvi (decode_ok_classify h).1
  · cases i with
    | mov d s => exact .inl ⟨d, s, rfl⟩
    | mvi d imm => exact .inr (.inl ⟨d, imm, rfl⟩)
    | sta a => exact .inr (.inr (.inr ⟨a, .inl rfl⟩))
    | lda a => exact .inr (.inr (.inr ⟨a, .inr rfl⟩))
    | unknown op' => simp [(decode_ok_classify h).2 op' rfl]
    | nop | staxB | staxD | ldaxB | ldaxD => simp

/-- Settles O21: the decoder's answer at the cursor, and the two halves of an assembled address. -/
theorem operandAssembly : Obligations.OperandAssembly := by
  refine ⟨fun _ _ _ _ _ => decodeAt_mvi, fun _ _ _ lo hi dir hop hc hlo hhi =>
    ⟨assembleAddr hi lo, ?_, high_assembleAddr hi lo, low_assembleAddr hi lo,
      BitVec.toNat_append hi lo⟩⟩
  have hdec := decodeAt_direct hop hc hlo hhi
  cases dir <;> exact hdec

end Machine

end Sys2Proof
end

section
/-!
PROOFS. The classifier (40_classifier.md R67 to R69): which byte is NOP, the answers of the decoder on an
opcode byte and its operand bytes, when the truncation port is 0, and the step of an instruction whose
bytes are all there.
-/
namespace Sys2Proof

/-! ### The classifier and the decoder on given bytes -/

/-- R54: one byte is NOP. -/
theorem classify_eq_nop_iff (op : Byte) : classify op = .nop ↔ op = 0x00 :=
  ⟨(classify_exact op).1, fun h => h ▸ rfl⟩

/-- R56: the opcode byte of MVI for each register. -/
theorem classify_mviOpcode (d : Reg) : classify (0b00#2 ++ d.field ++ 0b110#3) = .mvi d := by
  cases d <;> decide

/-- R52: the byte after an MVI opcode is the literal, whatever its value. -/
theorem decode_mvi {op : Byte} {d : Reg} (hc : classify op = .mvi d) (imm : Byte)
    (rest : List Byte) : decode (op :: imm :: rest) = .ok (.mvi d imm) 2 := by
  rw [decode, hc, decodeOperands]

namespace Machine

/-- R53: the two bytes after a direct opcode are the address, whatever their values. -/
theorem decode_direct {op : Byte} {dir : Dir} (hc : classify op = .direct dir) (lo hi : Byte)
    (rest : List Byte) :
    decode (op :: lo :: hi :: rest) = .ok (directInstr dir (assembleAddr hi lo)) 3 := by
  rw [decode, hc]
  cases dir <;> rfl

/-! ### Ports and completion -/

/-- R84: no truncation where the instruction's bytes are available. -/
theorem truncBit_eq_zero {op : Byte} {avail : BitVec 2} (h : insnLen op ≤ avail.toNat) :
    truncBit op avail = 0 :=
  if_neg (Nat.not_lt.2 h)

/-- R89 to R92: with all its bytes in the image, an instruction emits its line and advances. -/
theorem exec_complete {i : Instr} {s : State} (hf : s.fault = none)
    (hL : s.cur + i.len ≤ s.img.len) :
    exec i s = .next ((s.emit (Decoded.ofInstr i)).advance i.len) := by
  have hpos := i.len_pos
  rw [exec_eq_retire]
  exact retire_complete hf (by omega) hL

/-! ### The obligations -/

/-- Settles O5: the classifier's answer for 0x00; as an operand byte 0x00 is an instance of `decode_mvi`
and `decode_direct`, which hold for every byte. -/
theorem nopRule : Obligations.NopRule := by
  refine ⟨classify_eq_nop_iff, by decide, fun _ => rfl, fun b1 b2 av hav => ?ports,
    fun d => decode_mvi (classify_mviOpcode d) 0x00, fun op dir b rest hc => ?address,
    fun s hf hcur => exec_complete hf hcur, by decide⟩
  case ports => exact ⟨rfl, rfl, rfl, rfl, truncBit_eq_zero hav⟩
  case address =>
    have hlow := decode_direct hc 0x00 b rest
    have hhigh := decode_direct hc b 0x00 rest
    cases dir <;> exact ⟨hlow, hhigh⟩

end Machine

end Sys2Proof
end

section
/-!
PROOFS. The decode loop (45_decode_loop.md R89 to R91): what a step does, by the decoder's answer at the
cursor, and how far it moves the cursor and the address counter.
-/
namespace Sys2Proof

/-- R81, R82: an instruction is its opcode byte and the extra bytes. -/
theorem one_add_extraBytes (op : Byte) : 1 + extraBytes op = insnLen op :=
  Nat.add_sub_cancel' (insnLen_pos op)

namespace Machine

/-! ### The length the decoder answers -/

/-- R87: the decoded length is 1 + extra of the opcode byte at the cursor. -/
theorem decodeAt_ok_length {m : Memory} {cur : Nat} {op : Byte} {i : Instr} {L : Nat}
    (hop : m.read cur = some op) (hdec : decodeAt m cur = .ok i L) : L = 1 + extraBytes op := by
  rw [one_add_extraBytes]
  rcases decodeAt_cases hop with ⟨_, htr⟩ | ⟨j, hlen, _, hok⟩
  · rw [hdec] at htr; cases htr
  · rw [hdec] at hok; cases hok; exact hlen

/-! ### A step, by the decoder's answer at the cursor -/

/-- A step is taken only where there is an opcode byte (R17, R89). -/
theorem step_opcode {s t : State} (h : step s = .next t) : ∃ op, s.img.read s.cur = some op :=
  Memory.read_of_lt ((State.phase_eq_run_iff s).1 (step_next h).1).2

/-- Where the decoder answers an instruction, the step emits its line and advances by its length. -/
theorem step_of_decodeAt_ok {s t : State} {i : Instr} {L : Nat} (h : step s = .next t)
    (hdec : decodeAt s.img s.cur = .ok i L) :
    t = (s.emit (Decoded.ofInstr i)).advance L := by
  obtain ⟨_, ⟨htr, _⟩ | ⟨j, hok, _, rfl⟩⟩ := step_next h
  · rw [hdec] at htr; cases htr
  · rw [hdec] at hok; cases hok; rfl

/-- Where the decoder answers truncation, the step takes `Truncated`. -/
theorem step_of_decodeAt_truncated {s t : State} (h : step s = .next t)
    (hdec : decodeAt s.img s.cur = .truncated) : t = s.takeTruncated := by
  obtain ⟨_, ⟨_, rfl⟩ | ⟨i, hok, _, _⟩⟩ := step_next h
  · rfl
  · rw [hdec] at hok; cases hok

/-! ### The obligations -/

/-- Settles O24: in phase Run there is a step (`step_of_run`), and `step_next` names its two branches. -/
theorem stepIsOneAtomicTransition : Obligations.StepIsOneAtomicTransition := by
  refine ⟨fun s t h => (State.phase_eq_run_iff s).1 (step_next h).1, fun s hf hcur => ?_⟩
  obtain ⟨t, ht⟩ := step_of_run ((State.phase_eq_run_iff s).2 ⟨hf, hcur⟩)
  obtain ⟨_, ⟨hdec, rfl⟩ | ⟨i, hdec, _, rfl⟩⟩ := step_next ht
  · rw [hdec]; exact ht
  · rw [hdec]; exact ht

/-- Settles O28: the step advances by the decoded length, which is 1 + extra of the opcode and between 1
and 3. -/
theorem addressCounterAdvancesByEightPerByte : Obligations.AddressCounterAdvancesByEightPerByte := by
  refine fun s t h => ⟨fun i L hdec => ?decoded, fun hdec => ?truncated⟩
  case decoded =>
    obtain ⟨op, hop⟩ := step_opcode h
    obtain rfl := step_of_decodeAt_ok h hdec
    have hL := decodeAt_ok_length hop hdec
    have hpos := insnLen_pos op
    have hle := insnLen_le op
    rw [← one_add_extraBytes, ← hL] at hpos hle
    refine ⟨State.advance_ac _ _, ?_, op, hop, hL ▸ State.advance_ac _ _⟩
    simp only [State.advance_ac, State.emit_ac]
    omega
  case truncated =>
    rw [step_of_decodeAt_truncated h hdec, State.takeTruncated_ac]

/-- Settles O29: the cursor does not retreat (`step_cur_le`) or leave the image (`step_cur_le_len`), and a
step is one of the two branches of `step_next`. -/
theorem cursorAdvancesByTheLength : Obligations.CursorAdvancesByTheLength := by
  refine fun s t h => ⟨step_cur_le h, fun i L hdec => ?decoded, fun hdec => ?truncated, ?either⟩
  case decoded =>
    obtain ⟨op, hop⟩ := step_opcode h
    have hle : t.cur ≤ s.img.len := step_img h ▸ step_cur_le_len h
    obtain rfl := step_of_decodeAt_ok h hdec
    exact ⟨State.advance_cur _ _, hle, op, hop, decodeAt_ok_length hop hdec ▸ State.advance_cur _ _⟩
  case truncated =>
    rw [step_of_decodeAt_truncated h hdec, State.takeTruncated_cur]
  case either =>
    obtain ⟨_, ⟨htr, _⟩ | ⟨i, hok, _, _⟩⟩ := step_next h
    · exact .inr htr
    · exact .inl ⟨i, i.len, hok⟩

end Machine

end Sys2Proof
end

section
/-!
PROOFS. Hex text (46_output_format.md R103, R112, R113): the digits of `hex` from the last to the first,
and the four digits of a direct address.
-/
namespace Sys2Proof.Machine

/-! ### The base-16 digits -/

/-- Fuel above the value is enough: more of it changes no digit. -/
theorem hexDigitsUpTo_eq_of_lt : ∀ {fuel fuel' v : Nat}, v < fuel → v < fuel' →
    hexDigitsUpTo fuel v = hexDigitsUpTo fuel' v
  | fuel + 1, fuel' + 1, v, h, h' => by
    simp only [hexDigitsUpTo]
    split
    · rfl
    · rw [hexDigitsUpTo_eq_of_lt (fuel := fuel) (fuel' := fuel') (by omega) (by omega)]

theorem hexDigits_of_lt {v : Nat} (h : v < 16) : hexDigits v = [hexDigit v] := if_pos h

/-- The last digit is the value modulo 16, the digits before it are those of the quotient. -/
theorem hexDigits_of_le {v : Nat} (h : 16 ≤ v) :
    hexDigits v = hexDigits (v / 16) ++ [hexDigit (v % 16)] := by
  rw [hexDigits, hexDigitsUpTo, if_neg (Nat.not_lt.2 h), hexDigits,
    hexDigitsUpTo_eq_of_lt (fuel' := v / 16 + 1) (by omega) (by omega)]

/-! ### The digits padded to a width -/

/-- The characters of `hex v w` after `0x`; `hex_eq_paddedDigits` ties it to `hex`. -/
def paddedDigits (v w : Nat) : List Char :=
  List.replicate (w - (hexDigits v).length) '0' ++ hexDigits v

theorem hex_eq_paddedDigits (v w : Nat) : hex v w = "0x" ++ String.ofList (paddedDigits v w) := rfl

theorem paddedDigits_one {v : Nat} (h : v < 16) : paddedDigits v 1 = [hexDigit v] := by
  simp [paddedDigits, hexDigits_of_lt h]

/-- Padding commutes with taking off the last digit: where the quotient is 0, its digit is one more of the
padding zeros. -/
theorem paddedDigits_succ (v : Nat) {w : Nat} (hw : 1 ≤ w) :
    paddedDigits v (w + 1) = paddedDigits (v / 16) w ++ [hexDigit (v % 16)] := by
  rcases Nat.lt_or_ge v 16 with h | h
  · have hzero : hexDigits (v / 16) = ['0'] := by rw [Nat.div_eq_of_lt h]; rfl
    obtain ⟨k, rfl⟩ := Nat.exists_eq_add_of_le' hw
    simp [paddedDigits, hexDigits_of_lt h, hzero, Nat.mod_eq_of_lt h, List.replicate_succ']
  · simp [paddedDigits, hexDigits_of_le h]

/-- A value of 16 bits has exactly four digits at width 4, one per nibble. -/
theorem paddedDigits_four {v : Nat} (h : v < 0x10000) :
    paddedDigits v 4 = [hexDigit (v / 4096), hexDigit (v / 256 % 16), hexDigit (v / 16 % 16),
      hexDigit (v % 16)] := by
  have htop : v / 16 / 16 / 16 < 16 := by omega
  rw [paddedDigits_succ v (by decide), paddedDigits_succ (v / 16) (by decide),
    paddedDigits_succ (v / 16 / 16) (by decide), paddedDigits_one htop]
  simp [Nat.div_div_eq_div_mul]

/-! ### The obligation -/

/-- Settles O56: the address is below 0x10000, so `paddedDigits_four` gives its digits; the two worked
examples are passes of one line. -/
theorem directAddressText : Obligations.DirectAddressText := by
  refine ⟨fun cfg a => ⟨?digits, rfl, rfl⟩, fun cfg => ?sta, fun cfg => ?lda⟩
  case digits => rw [hex_eq_paddedDigits, paddedDigits_four a.isLt]
  case sta =>
    have hrun : (run [0x32, 0xEF, 0xBE]).1 = [⟨0, .STA 0xBEEF⟩] := by decide
    rw [hrun]; rfl
  case lda =>
    have hrun : (run [0x3A, 0x00, 0x00]).1 = [⟨0, .LDA 0x0000⟩] := by decide
    rw [hrun]; rfl

end Sys2Proof.Machine
end

section
/-!
PROOFS. Decoder and encoder (30_encoding.md R47, R48, R54 to R60, 41_length_operands.md R80 to R88): the
opcode byte of each class, the round trip both ways, and the finite facts about the 256 byte values.
-/
namespace Sys2Proof

/-! ### The opcode byte of each class -/

/-- The opcode byte of an indirect class (R57); `classify_ind_iff` ties it to the classifier. -/
def indirectOpcode : Dir → Pair → Byte
  | .Store, .B => 0x02
  | .Store, .D => 0x12
  | .Load, .B => 0x0A
  | .Load, .D => 0x1A

/-- The opcode byte of a direct class (R57); `classify_direct_iff` ties it to the classifier. -/
def directOpcode : Dir → Byte
  | .Store => 0x32
  | .Load => 0x3A

theorem classify_ind_iff (op : Byte) (dir : Dir) (p : Pair) :
    classify op = .ind dir p ↔ op = indirectOpcode dir p := by
  obtain ⟨_, hStoreB, hStoreD, hLoadB, hLoadD, _, _⟩ := classify_exact op
  cases dir <;> cases p
  · exact ⟨hStoreB, fun h => h ▸ rfl⟩
  · exact ⟨hStoreD, fun h => h ▸ rfl⟩
  · exact ⟨hLoadB, fun h => h ▸ rfl⟩
  · exact ⟨hLoadD, fun h => h ▸ rfl⟩

theorem classify_direct_iff (op : Byte) (dir : Dir) :
    classify op = .direct dir ↔ op = directOpcode dir := by
  obtain ⟨_, _, _, _, _, hStore, hLoad⟩ := classify_exact op
  cases dir
  · exact ⟨hStore, fun h => h ▸ rfl⟩
  · exact ⟨hLoad, fun h => h ▸ rfl⟩

/-- R55: the opcode byte of MOV for each two registers. -/
theorem classify_movOpcode (d s : Reg) : classify (0b01#2 ++ d.field ++ s.field) = .mov d s := by
  cases d <;> cases s <;> decide

@[simp] theorem topField_append (t : BitVec 2) (d s : RegField) : topField (t ++ d ++ s) = t := by
  revert t d s; decide

/-- R55, R67: top bits 01 are a register move of the registers the fields name. -/
theorem classify_of_movBits {op : Byte} (h : topField op = 0b01#2) :
    classify op = .mov (Reg.ofField (dstField op)) (Reg.ofField (srcField op)) := by
  have hmov := classify_movOpcode (Reg.ofField (dstField op)) (Reg.ofField (srcField op))
  rwa [Reg.field_ofField, Reg.field_ofField, ← h, ← byte_eq_fields] at hmov

/-- R56, R67: top bits 00 and source field 110 are a move-immediate to the register the destination
field names. -/
theorem classify_of_mviBits {op : Byte} (h : topField op = 0b00#2 ∧ srcField op = 0b110#3) :
    classify op = .mvi (Reg.ofField (dstField op)) := by
  have hmvi := classify_mviOpcode (Reg.ofField (dstField op))
  rwa [Reg.field_ofField, ← h.1, ← h.2, ← byte_eq_fields] at hmvi

theorem exists_classify_mov_iff (op : Byte) :
    (∃ d s, classify op = .mov d s) ↔ topField op = 0b01#2 := by
  refine ⟨fun ⟨d, s, h⟩ => ?_, fun h => ⟨_, _, classify_of_movBits h⟩⟩
  rw [classify_mov h, topField_append]

theorem exists_classify_mvi_iff (op : Byte) :
    (∃ d, classify op = .mvi d) ↔ topField op = 0b00#2 ∧ srcField op = 0b110#3 := by
  refine ⟨fun ⟨d, h⟩ => ?_, fun h => ⟨_, classify_of_mviBits h⟩⟩
  rw [classify_mvi h]
  exact ⟨topField_append _ _ _, srcField_append _ _ _⟩

/-- R56: the eight move-immediate bytes. -/
theorem mviBits_iff_mem (op : Byte) : topField op = 0b00#2 ∧ srcField op = 0b110#3 ↔
    op ∈ [0x06#8, 0x0E#8, 0x16#8, 0x1E#8, 0x26#8, 0x2E#8, 0x36#8, 0x3E#8] := by
  revert op; decide +kernel

/-- R55: top bits 01 are the byte values from 0x40 to 0x7F. -/
theorem movBits_iff_range (op : Byte) :
    topField op = 0b01#2 ↔ 0x40 ≤ op.toNat ∧ op.toNat ≤ 0x7F := by
  revert op; decide +kernel

theorem classify_eq_unk_iff (op : Byte) : classify op = .unk ↔ unrecognised op = true :=
  ⟨unrecognised_of_classify op, classify_of_unrecognised op⟩

/-! ### The round trip -/

namespace Machine

/-- R48, R87: the bytes of an instruction decode to it, whatever follows them. -/
theorem decode_encode {i : Instr} (hwf : i.wf = true) (rest : List Byte) :
    decode (encode i ++ rest) = .ok i (encode i).length := by
  cases i with
  | nop | staxB | staxD | ldaxB | ldaxD => rfl
  | mov d s =>
    show decode ((0b01#2 ++ d.field ++ s.field) :: rest) = _
    rw [decode, classify_movOpcode]; rfl
  | mvi d imm => exact decode_mvi (classify_mviOpcode d) imm rest
  | sta a =>
    have h := decode_direct (op := 0x32) (dir := .Store) rfl (a.extractLsb' 0 8)
      (a.extractLsb' 8 8) rest
    rwa [assembleAddr_bytes] at h
  | lda a =>
    have h := decode_direct (op := 0x3A) (dir := .Load) rfl (a.extractLsb' 0 8)
      (a.extractLsb' 8 8) rest
    rwa [assembleAddr_bytes] at h
  | unknown op =>
    show decode (op :: rest) = _
    rw [decode, classify_of_unrecognised op hwf]; rfl

end Machine

/-- What is decoded is well formed and its encoding is the bytes consumed. -/
theorem encode_decodeOperands {op : Byte} {rest : List Byte} {i : Instr} {L : Nat}
    (h : decodeOperands op (classify op) rest = .ok i L) :
    i.wf = true ∧ L = (encode i).length ∧ (op :: rest).take L = encode i := by
  generalize hc : classify op = c at h
  -- one case per arm of the operand assembly that answers an instruction, in the order of the arms
  unfold decodeOperands at h
  split at h <;> cases h
  · simp [Instr.wf, encode, (classify_eq_nop_iff op).1 hc]
  · simp [Instr.wf, encode, ← classify_mov hc]
  · simp [Instr.wf, encode, ← classify_mvi hc]
  iterate 4 simp [Instr.wf, encode, (classify_ind_iff op _ _).1 hc, indirectOpcode]
  iterate 2 simp [Instr.wf, encode, (classify_direct_iff op _).1 hc, directOpcode]
  · simp [Instr.wf, encode, unrecognised_of_classify op hc]

/-! ### The obligations -/

/-- Settles O2: `Machine.decode_encode`, one case per constructor. -/
theorem decodeOfEncode : Obligations.DecodeOfEncode :=
  fun _ rest hwf => Machine.decode_encode hwf rest

/-- Settles O3: the opcode byte follows from its class, the operand bytes from the arm of the operand
assembly (`encode_decodeOperands`). -/
theorem encodeOfDecode : Obligations.EncodeOfDecode := by
  intro bs i L h
  cases bs with
  | nil => cases h
  | cons op rest => exact encode_decodeOperands h

/-- Settles O1: each byte sequence is decoded by evaluation. -/
theorem writtenOutBytesDecode : Obligations.WrittenOutBytesDecode := by
  unfold Obligations.WrittenOutBytesDecode; decide

/-- Settles O4: the three sets from the classifier's opcode bytes; the counts and the partition are over
the 256 byte values. -/
theorem opcodeSetsPartitionTheBytes : Obligations.OpcodeSetsPartitionTheBytes :=
  ⟨fun op => (exists_classify_mov_iff op).trans (movBits_iff_range op),
    fun op => (exists_classify_mvi_iff op).trans (mviBits_iff_mem op), classify_eq_unk_iff,
    by decide +kernel, by decide +kernel, by decide +kernel⟩

/-- Settles O17: `extra` is bounded by the bounds of the length; the length and the bits of the exact
bytes are read off the byte values. -/
theorem lengthAndGateForms : Obligations.LengthAndGateForms := by
  refine ⟨fun op => ⟨rfl, ?extra⟩, by decide +kernel, by decide, by decide, by decide⟩
  have hle := insnLen_le op
  have hextra : extraBytes op < 3 := by unfold extraBytes; omega
  interval_cases extraBytes op <;> decide

end Sys2Proof
end

section
/-!
PROOFS. `decodeAt` (41_length_operands.md R84, R87, R88): which bytes of the image it depends on, when it
answers `truncated`, and its answer class by class.
-/
namespace Sys2Proof

/-! ### The bytes the decoder depends on -/

theorem decodeOperands_take (op : Byte) (rest : List Byte) {c : Class} {n : Nat}
    (hn : c.len ≤ n + 1) : decodeOperands op c (rest.take n) = decodeOperands op c rest := by
  cases c with
  | nop | mov _ _ | unk => rfl
  | ind dir p => cases dir <;> cases p <;> rfl
  | mvi d =>
    obtain ⟨k, rfl⟩ := Nat.exists_eq_add_of_le' (Nat.le_of_succ_le_succ hn)
    cases rest <;> rfl
  | direct dir =>
    obtain ⟨k, rfl⟩ := Nat.exists_eq_add_of_le' (Nat.le_of_succ_le_succ hn)
    rcases rest with _ | ⟨lo, _ | ⟨hi, rest⟩⟩ <;> cases dir <;> rfl

/-- R88: bytes beyond the instruction's length do not matter. -/
theorem decode_take {op : Byte} (rest : List Byte) {n : Nat} (hn : insnLen op ≤ n) :
    decode ((op :: rest).take n) = decode (op :: rest) := by
  obtain ⟨k, rfl⟩ := Nat.exists_eq_add_of_le' ((insnLen_pos op).trans hn)
  exact decodeOperands_take op rest hn

@[simp] theorem length_encode (i : Instr) : (encode i).length = i.len := by cases i <;> rfl

namespace Machine

/-- The first bytes of a window are those of the image (R26). -/
theorem Memory.getElem?_take_window (m : Memory) (i k : Nat) {L : Nat} (hL : L ≤ 3) :
    ((m.window i).take L)[k]? = if k < L then m.read (i + k) else none := by
  rw [Memory.window_eq_take_drop, List.take_take, Nat.min_eq_left hL, List.getElem?_take,
    List.getElem?_drop, Memory.getElem?_bytes]

/-- R87: `decodeAt` is the decoder on all the bytes from the cursor on. -/
theorem decodeAt_eq_decode_drop (m : Memory) (cur : Nat) :
    decodeAt m cur = decode (m.bytes.drop cur) := by
  rw [decodeAt, Memory.window_eq_take_drop]
  cases m.bytes.drop cur with
  | nil => rfl
  | cons op rest => exact decode_take rest (insnLen_le op)

/-- R88: `decodeAt` is the decoder on the instruction's own bytes. -/
theorem decodeAt_eq_decode_take {m : Memory} {cur : Nat} {op : Byte} (hop : m.read cur = some op) :
    decodeAt m cur = decode ((m.window cur).take (insnLen op)) := by
  obtain ⟨rest, hwin, _⟩ := Memory.window_cons hop
  rw [decodeAt, hwin, decode_take rest le_rfl]

/-! ### What each answer says -/

theorem decodeAt_eq_truncated_iff {m : Memory} {cur : Nat} {op : Byte} (hop : m.read cur = some op) :
    decodeAt m cur = .truncated ↔ m.len - cur < insnLen op := by
  rcases decodeAt_cases hop with ⟨hlt, htr⟩ | ⟨i, hlen, hle, hok⟩
  · simp [htr, hlt]
  · simp [hok, ← hlen, hle]

/-- A truncated instruction has its opcode byte in the image. -/
theorem decodeAt_truncated_lt {m : Memory} {cur : Nat} (h : decodeAt m cur = .truncated) :
    cur < m.len := by
  obtain ⟨op, rest, hwin, _⟩ := decode_truncated h
  have hlen := m.length_window cur
  rw [hwin, List.length_cons] at hlen
  omega

/-- R82, R87: a decoded instruction is well formed and stands whole in the image, over the length
decoded. -/
theorem decodeAt_ok {m : Memory} {cur : Nat} {i : Instr} {L : Nat} (h : decodeAt m cur = .ok i L) :
    i.wf = true ∧ L = i.len ∧ cur + L ≤ m.len := by
  obtain ⟨hwf, -, -⟩ := encodeOfDecode _ _ _ h
  obtain ⟨_, _, -, hL, -, hle⟩ := decode_ok h
  have hpos := i.len_pos
  rw [Memory.length_window] at hle
  exact ⟨hwf, hL, by omega⟩

/-- R87: a one-byte instruction is decoded from its opcode alone. -/
theorem decodeAt_of_decode_cons {m : Memory} {cur : Nat} {op : Byte} {i : Instr} {L : Nat}
    (hop : m.read cur = some op) (h : ∀ rest, decode (op :: rest) = .ok i L) :
    decodeAt m cur = .ok i L := by
  obtain ⟨rest, hwin, _⟩ := Memory.window_cons hop
  rw [decodeAt, hwin, h]

/-- R87: an instruction whose encoding stands at the cursor is decoded there. -/
theorem decodeAt_of_encode {m : Memory} {cur : Nat} {i : Instr} (hwf : i.wf = true)
    (h : ∀ k < (encode i).length, m.read (cur + k) = (encode i)[k]?) :
    decodeAt m cur = .ok i i.len := by
  have hlen : (encode i).length ≤ 3 := length_encode i ▸ i.len_le
  have htake : (m.window cur).take (encode i).length = encode i := by
    refine List.ext_getElem? fun k => ?_
    rw [Memory.getElem?_take_window m cur k hlen]
    split
    · next hk => exact h k hk
    · next hk => exact (List.getElem?_eq_none (Nat.not_lt.1 hk)).symm
  rw [decodeAt, ← List.take_append_drop (encode i).length (m.window cur), htake, decode_encode hwf,
    length_encode]

/-! ### The obligations -/

/-- Settles O19: truncation depends on the opcode and the bytes left; otherwise the two windows have the
same first bytes, and the decoder depends on those alone. -/
theorem decodeReadsItsOwnBytesOnly : Obligations.DecodeReadsItsOwnBytesOnly := by
  intro m m' cur cur' op hop hop' htr hbytes
  rcases Nat.lt_or_ge (m.len - cur) (insnLen op) with hlt | hge
  · rw [(decodeAt_eq_truncated_iff hop).2 hlt, (decodeAt_eq_truncated_iff hop').2 (htr.1 hlt)]
  · rw [decodeAt_eq_decode_take hop, decodeAt_eq_decode_take hop']
    congr 1
    refine List.ext_getElem? fun k => ?_
    rw [Memory.getElem?_take_window m cur k (insnLen_le op),
      Memory.getElem?_take_window m' cur' k (insnLen_le op)]
    split
    · next hk => exact hbytes hge k hk
    · rfl

/-- Settles O20: a one-byte class needs the opcode alone; for the others the operand bytes are inside the
image. -/
theorem decodeAtFollowsThePseudocode : Obligations.DecodeAtFollowsThePseudocode := by
  intro m cur op hop
  refine ⟨decodeAt_eq_truncated_iff hop, fun hle => ?_⟩
  have hone : ∀ i : Instr, (∀ rest, decodeOperands op (classify op) rest = .ok i 1) →
      decodeAt m cur = .ok i 1 := fun i => decodeAt_of_decode_cons hop
  have hread : ∀ k < insnLen op, ∃ b, m.read (cur + k) = some b := fun k hk =>
    Memory.read_of_lt (by omega)
  unfold insnLen at hread
  rcases hc : classify op with _ | ⟨d, s⟩ | d | ⟨_ | _, _ | _⟩ | dir | _ <;> rw [hc] at hone hread
  case mvi =>
    obtain ⟨b, hb⟩ := hread 1 (by simp [Class.len])
    exact ⟨b, hb, decodeAt_mvi hop hc hb⟩
  case direct =>
    obtain ⟨lo, hlo⟩ := hread 1 (by simp [Class.len])
    obtain ⟨hi, hhi⟩ := hread 2 (by simp [Class.len])
    have hdec := decodeAt_direct hop hc hlo hhi
    cases dir <;> exact ⟨lo, hi, hlo, hhi, hdec⟩
  all_goals exact hone _ fun _ => rfl

end Machine

end Sys2Proof
end

section
/-!
PROOFS. One step (45_decode_loop.md R89 to R93, 60_exceptions.md R116 to R120): the step and the meanings
by the decoder's answer, the frame, the fault record, the status ports, and the invariant a step keeps.
-/
namespace Sys2Proof.Machine

/-! ### The step by the decoder's answer -/

theorem step_eq_exec {s : State} {i : Instr} {L : Nat} (hf : s.fault = none)
    (hdec : decodeAt s.img s.cur = .ok i L) : step s = exec i s := by
  obtain ⟨-, rfl, hle⟩ := decodeAt_ok hdec
  have hpos := i.len_pos
  have hrun := (State.phase_eq_run_iff s).2 ⟨hf, by omega⟩
  simp only [step, hrun, hdec]

theorem step_truncated {s : State} (hf : s.fault = none)
    (hdec : decodeAt s.img s.cur = .truncated) : step s = .next s.takeTruncated := by
  have hrun := (State.phase_eq_run_iff s).2 ⟨hf, decodeAt_truncated_lt hdec⟩
  simp only [step, hrun, hdec]

theorem step_complete {s : State} {i : Instr} {L : Nat} (hf : s.fault = none)
    (hdec : decodeAt s.img s.cur = .ok i L) :
    step s = .next ((s.emit (Decoded.ofInstr i)).advance L) := by
  obtain ⟨-, rfl, hle⟩ := decodeAt_ok hdec
  rw [step_eq_exec hf hdec, exec_complete hf hle]

/-- R89 to R92, for bytes that are the encoding of an instruction. -/
theorem step_eq_exec_of_encode {s : State} {i : Instr} (hwf : i.wf = true) (hf : s.fault = none)
    (hbytes : ∀ k < (encode i).length, s.img.read (s.cur + k) = (encode i)[k]?) :
    step s = exec i s ∧ exec i s = .next ((s.emit (Decoded.ofInstr i)).advance i.len) := by
  have hdec := decodeAt_of_encode hwf hbytes
  obtain ⟨-, -, hle⟩ := decodeAt_ok hdec
  exact ⟨step_eq_exec hf hdec, exec_complete hf hle⟩

/-- R93: outside phase Run no step is taken. -/
theorem step_ne_next {s : State} (hp : s.phase ≠ .run) (t : State) : step s ≠ .next t :=
  fun h => hp (step_next h).1

theorem step_fault_eq_none {s t : State} (h : step s = .next t) : s.fault = none :=
  ((State.phase_eq_run_iff s).1 (step_next h).1).1

/-- R15, R117: a step that leaves a fault recorded found a truncated instruction and took `Truncated`. -/
theorem step_records_fault {s t : State} {a : Nat} (h : step s = .next t) (ha : t.fault = some a) :
    decodeAt s.img s.cur = .truncated ∧ t = s.takeTruncated := by
  have hf := step_fault_eq_none h
  obtain ⟨_, ⟨hdec, rfl⟩ | ⟨i, _, _, rfl⟩⟩ := step_next h
  · exact ⟨hdec, rfl⟩
  · rw [State.advance_fault, State.emit_fault, hf] at ha; cases ha

/-- R120: from a state with a fault recorded no other state is reached. -/
theorem Reaches.eq_of_fault {s t : State} {a : Nat} (h : Reaches s t) (ha : s.fault = some a) :
    t = s :=
  h.invariant (P := fun t => t = s)
    (fun _ u hts hstep => by
      have hf := step_fault_eq_none hstep
      rw [hts, ha] at hf; cases hf) rfl

/-! ### The ports of each phase (R27, R116) -/

theorem State.ports_of_run {s : State} (h : s.phase = .run) : s.ports = ⟨0, 0, none⟩ := by
  simp only [State.ports, h]

theorem State.ports_of_done {s : State} (h : s.phase = .done) : s.ports = ⟨1, 0, none⟩ := by
  simp only [State.ports, h]

theorem State.ports_of_failed {s : State} {a : Nat} (h : s.phase = .failed a) :
    s.ports = ⟨0, 1, some a⟩ := by
  simp only [State.ports, h]

/-- R27, R92: the line-out port shows what the step appends. -/
theorem lineOut_of_step {s t : State} (h : step s = .next t) :
    lineOut s = t.lines.drop s.lines.length := by
  simp only [lineOut, h]

/-! ### Instructions that can be truncated -/

theorem Instr.operands_of_one_lt_len {i : Instr} (h : 1 < i.len) :
    (∃ d imm, i = .mvi d imm) ∨ (∃ a, i = .sta a) ∨ ∃ a, i = .lda a := by
  cases i with
  | mvi d imm => exact .inl ⟨d, imm, rfl⟩
  | sta a => exact .inr (.inl ⟨a, rfl⟩)
  | lda a => exact .inr (.inr ⟨a, rfl⟩)
  | nop | mov _ _ | staxB | staxD | ldaxB | ldaxD | unknown _ => exact absurd h (lt_irrefl 1)

/-- R84: with its opcode in the image, what is truncated is an MVI in the last byte, or an STA or LDA with
fewer than two bytes after it. -/
theorem truncated_class {m : Memory} {cur : Nat} {op : Byte} (hop : m.read cur = some op)
    (hdec : decodeAt m cur = .truncated) :
    ((∃ d, classify op = .mvi d) ∧ cur + 1 = m.len) ∨
      ((∃ dir, classify op = .direct dir) ∧ m.len ≤ cur + 2) := by
  have hlt := decodeAt_truncated_lt hdec
  have hshort := (decodeAt_eq_truncated_iff hop).1 hdec
  unfold insnLen at hshort
  cases hc : classify op with
  | mvi d => rw [hc, Class.len] at hshort; exact .inl ⟨⟨d, rfl⟩, by omega⟩
  | direct dir => rw [hc, Class.len] at hshort; exact .inr ⟨⟨dir, rfl⟩, by omega⟩
  | nop | mov _ _ | ind _ _ | unk => rw [hc, Class.len] at hshort; omega

/-! ### The invariant -/

/-- R98: a line at the end address, with its length, moves the end. -/
theorem linesTile_append {d : Decoded} {b : Nat} :
    ∀ {ls : List Line} {a : Nat}, linesTile a ls b →
      linesTile a (ls ++ [⟨b, d⟩]) (b + 8 * d.len)
  | [], _, h => by cases h; exact ⟨rfl, rfl⟩
  | _ :: _, _, ⟨haddr, hrest⟩ => ⟨haddr, linesTile_append hrest⟩

theorem State.Inv.takeTruncated {s : State} (hs : s.Inv) (hdec : decodeAt s.img s.cur = .truncated) :
    s.takeTruncated.Inv where
  imgWf := hs.imgWf
  curLe := hs.curLe
  acEq := hs.acEq
  faultAt _ ha := ⟨(Option.some.inj ha).symm, hdec⟩
  linesTile := hs.linesTile

theorem State.Inv.retired {s : State} {i : Instr} (hs : s.Inv) (hf : s.fault = none)
    (hle : s.cur + i.len ≤ s.img.len) : ((s.emit (Decoded.ofInstr i)).advance i.len).Inv where
  imgWf := hs.imgWf
  curLe := hle
  acEq := by simp [hs.acEq, Nat.mul_add]
  faultAt a ha := by rw [State.advance_fault, State.emit_fault, hf] at ha; cases ha
  linesTile := by simpa using linesTile_append (d := Decoded.ofInstr i) hs.linesTile

theorem State.Inv.step {s t : State} (hs : s.Inv) (h : step s = .next t) : t.Inv := by
  obtain ⟨_, ⟨hdec, rfl⟩ | ⟨i, hdec, _, rfl⟩⟩ := step_next h
  · exact hs.takeTruncated hdec
  · obtain ⟨-, -, hle⟩ := decodeAt_ok hdec
    exact hs.retired (step_fault_eq_none h) hle

theorem passStart_inv (img : List Byte) : (passStart img).Inv where
  imgWf := Memory.wf_ofBytes img
  curLe := Nat.zero_le _
  acEq := rfl
  faultAt _ ha := by cases ha
  linesTile := rfl

theorem Reaches.inv {img : List Byte} {t : State} (h : Reaches (passStart img) t) : t.Inv :=
  h.invariant (fun _ _ => State.Inv.step) (passStart_inv img)

/-! ### The obligations -/

/-- Settles O41: `Truncated` writes the fault record at a truncated instruction (`State.Inv.takeTruncated`),
a decoded instruction adds one line to the tiling (`State.Inv.retired`). -/
theorem stepKeepsTheInvariant : Obligations.StepKeepsTheInvariant := fun _ _ => State.Inv.step

/-- Settles O40: every field of the invariant by the start values. -/
theorem invariantHoldsAtTheStart : Obligations.InvariantHoldsAtTheStart :=
  ⟨passStart_inv [], rfl, passStart_inv⟩

/-- Settles O25: `step_eq_exec`, and what a decoded instruction is (`decodeAt_ok`). -/
theorem stepRunsTheDecodedInstruction : Obligations.StepRunsTheDecodedInstruction := by
  intro s i L hf _ hdec
  obtain ⟨hwf, hL, -⟩ := decodeAt_ok hdec
  exact ⟨step_eq_exec hf hdec, hwf, hL⟩

/-- Settles O26: the encoded bytes decode to the instruction, which then completes. -/
theorem encodedInstructionAtCursorRuns : Obligations.EncodedInstructionAtCursorRuns := by
  intro s i hwf hf hbytes
  rw [length_encode]
  exact step_eq_exec_of_encode hwf hf hbytes

/-- Settles O27: every meaning is `retire`; a one-byte instruction is never short of bytes. -/
theorem frameOfEveryInstruction : Obligations.FrameOfEveryInstruction := by
  intro i s t h
  rw [exec_eq_retire] at h
  obtain ⟨hrun, hcase⟩ := retire_next h
  obtain ⟨hf, hcur⟩ := (State.phase_eq_run_iff s).1 hrun
  rcases hcase with ⟨hshort, rfl⟩ | ⟨hle, rfl⟩
  · exact ⟨rfl, fun _ => rfl, .inr ⟨by omega, rfl, hf, rfl, rfl, rfl,
      Instr.operands_of_one_lt_len (by omega)⟩⟩
  · exact ⟨rfl, fun _ => rfl, .inl ⟨by omega, rfl, hf, rfl, rfl, rfl⟩⟩

/-- Settles O30: the port shows what the step appends, one line or none. -/
theorem oneLinePerDecodedInstruction : Obligations.OneLinePerDecodedInstruction := by
  refine fun s t h => ⟨fun i L hdec => ?decoded, fun hdec => ?truncated⟩
  case decoded =>
    rw [lineOut_of_step h, step_of_decodeAt_ok h hdec]
    simp
  case truncated =>
    rw [lineOut_of_step h, step_of_decodeAt_truncated h hdec]
    simp

/-- Settles O31: the phase follows from the fault record and the cursor, the ports from the phase. -/
theorem terminalPhasesTakeNoStep : Obligations.TerminalPhasesTakeNoStep := by
  refine ⟨fun s hf hcur => ?done, fun s a ha => ?failed, fun s hf hcur => ?run⟩
  case done =>
    have hp := (State.phase_eq_done_iff s).2 ⟨hf, hcur.ge⟩
    rw [State.ports_of_done hp]
    exact ⟨step_ne_next (by simp [hp]), hp, rfl, rfl, rfl⟩
  case failed =>
    have hp := (State.phase_eq_failed_iff s a).2 ha
    rw [State.ports_of_failed hp]
    exact ⟨step_ne_next (by simp [hp]), hp, rfl, rfl, rfl⟩
  case run =>
    have hp := (State.phase_eq_run_iff s).2 ⟨hf, hcur⟩
    rw [State.ports_of_run hp]
    exact ⟨hp, rfl, rfl, rfl⟩

/-- Settles O32: in phase Run a step is taken, by one of its two branches. -/
theorem runPhaseAlwaysSteps : Obligations.RunPhaseAlwaysSteps := by
  intro s hf hcur
  obtain ⟨t, ht⟩ := step_of_run ((State.phase_eq_run_iff s).2 ⟨hf, hcur⟩)
  refine ⟨t, ht, ?_⟩
  obtain ⟨_, ⟨_, rfl⟩ | ⟨i, _, _, rfl⟩⟩ := step_next ht
  · exact .inr ⟨rfl, rfl⟩
  · exact .inl ⟨hf, by simp⟩

/-- Settles O33: a step that records a fault took `Truncated`, and `truncated_class` says at which
opcodes. -/
theorem onlyMviStaLdaAreTruncated : Obligations.OnlyMviStaLdaAreTruncated := by
  intro s t a h ha
  obtain ⟨op, hop⟩ := step_opcode h
  obtain ⟨hdec, rfl⟩ := step_records_fault h ha
  exact ⟨(Option.some.inj ha).symm, op, hop, truncated_class hop hdec⟩

/-- Settles O34: the step and the three meanings take `Truncated`, whose phase is Failed. -/
theorem truncatedEntryRecordsTheAddress : Obligations.TruncatedEntryRecordsTheAddress := by
  refine ⟨fun s hf _ => step_truncated hf, fun s d imm => retire_truncated,
    fun s a hf hcur hlen => ⟨retire_truncated hf hcur hlen, retire_truncated hf hcur hlen⟩,
    fun s t a h ha => ?_⟩
  obtain ⟨-, rfl⟩ := step_records_fault h ha
  have hp := s.phase_takeTruncated
  rw [State.ports_of_failed hp]
  exact ⟨hp, rfl, rfl, step_ne_next (by simp [hp])⟩

/-- Settles O35: the two branches of a step; a recorded fault is kept for good (`Reaches.eq_of_fault`). -/
theorem faultRecordIsWrittenOnce : Obligations.FaultRecordIsWrittenOnce := by
  refine ⟨fun s t h => ?_, fun _ _ _ ha h => h.eq_of_fault ha⟩
  have hf := step_fault_eq_none h
  refine ⟨hf, ?_⟩
  obtain ⟨_, ⟨hdec, rfl⟩ | ⟨i, _, _, rfl⟩⟩ := step_next h
  · exact .inr ⟨rfl, hdec⟩
  · exact .inl hf

/-- Settles O39: no step changes the image; the host's change in phase Run is refused. -/
theorem imageNeverChangesDuringAPass : Obligations.ImageNeverChangesDuringAPass := by
  refine ⟨fun s t h => ⟨h.img_eq, fun i => by rw [h.img_eq]⟩, fun cfg s img hf hcur => ?_⟩
  have hp := (State.phase_eq_run_iff s).2 ⟨hf, hcur⟩
  simp only [react, changeImage, hp]

/-- Settles O42: the line a step appends is the instruction decoded at the cursor, at 8 times the cursor. -/
theorem linesComeFromTheImage : Obligations.LinesComeFromTheImage := by
  refine ⟨fun img l hl => (by cases hl), fun s t hac hs h l hl => ?_⟩
  rw [step_img h]
  obtain ⟨_, ⟨_, rfl⟩ | ⟨i, hdec, _, rfl⟩⟩ := step_next h
  · exact hs l hl
  · rcases List.mem_append.1 hl with hold | hnew
    · exact hs l hold
    · rw [List.mem_singleton.1 hnew]
      exact ⟨s.cur, i, i.len, hac, hdec, rfl⟩

end Sys2Proof.Machine
end

section
/-!
PROOFS. The decode stage at its ports (10_state.md R26, 41_length_operands.md R83 to R86): the outputs by
the class of the opcode, the truncation port, and the step computed from the ports.
-/
namespace Sys2Proof.Machine

/-! ### The output ports by class -/

/-- R26, R62: the ports that depend on the class alone. -/
theorem stage_class_ports {op : Byte} {c : Class} (hc : classify op = c) (b1 b2 : Byte)
    (av : BitVec 2) :
    let o := stage ⟨op, b1, b2, av⟩
    o.cls = classCode c ∧ o.dirn = dirBit c ∧ o.pair = pairBit c ∧ o.len = BitVec.ofNat 2 c.len := by
  subst hc; exact ⟨rfl, rfl, rfl, rfl⟩

/-- R80, R84: an available one-byte instruction is not truncated. -/
theorem stage_oneByte_ports {op : Byte} {c : Class} (hc : classify op = c) (hlen : c.len = 1)
    (b1 b2 : Byte) {av : BitVec 2} (hav : 1 ≤ av.toNat) :
    let o := stage ⟨op, b1, b2, av⟩
    o.cls = classCode c ∧ o.dirn = dirBit c ∧ o.pair = pairBit c ∧ o.len = 1 ∧ o.trunc = 0 := by
  obtain ⟨hcls, hdirn, hpair, hlenPort⟩ := stage_class_ports hc b1 b2 av
  have hlen1 : insnLen op = 1 := by rw [insnLen, hc, hlen]
  exact ⟨hcls, hdirn, hpair, hlenPort.trans (by rw [hlen]; rfl),
    truncBit_eq_zero (hlen1.trans_le hav)⟩

theorem truncBit_eq_one_iff (op : Byte) (av : BitVec 2) :
    truncBit op av = 1 ↔ av.toNat < insnLen op := by
  unfold truncBit
  split <;> simp [*]

/-- R52, R86: the literal port carries the byte after the opcode. -/
theorem immPort_of_mvi {op b1 b2 : Byte} {av : BitVec 2} {d : Reg} (hc : classify op = .mvi d)
    (hav : insnLen op ≤ av.toNat) : immPort ⟨op, b1, b2, av⟩ = b1 := by
  simp only [immPort, hc, truncBit_eq_zero hav, if_true]

/-- R53, R86: the address port carries the second byte after the opcode above the first. -/
theorem addrPort_of_direct {op b1 b2 : Byte} {av : BitVec 2} {dir : Dir}
    (hc : classify op = .direct dir) (hav : insnLen op ≤ av.toNat) :
    addrPort ⟨op, b1, b2, av⟩ = assembleAddr b2 b1 := by
  simp only [addrPort, hc, truncBit_eq_zero hav, if_true]

/-- R80: the length port is wide enough for the length. -/
theorem toNat_stage_len (i : StageIn) : (stage i).len.toNat = insnLen i.op :=
  (BitVec.toNat_ofNat _ _).trans (Nat.mod_eq_of_lt (Nat.lt_succ_of_le (insnLen_le i.op)))

/-- With all its bytes on the input ports, the output ports spell the instruction the decoder reads. -/
theorem decoded_stage {op b1 b2 : Byte} {av : BitVec 2} {i : Instr} {L : Nat}
    (hdec : decode [op, b1, b2] = .ok i L) (hav : insnLen op ≤ av.toNat) :
    (stage ⟨op, b1, b2, av⟩).decoded = some (Decoded.ofInstr i) := by
  rw [decode] at hdec
  rcases hc : classify op with _ | ⟨d, s⟩ | d | ⟨_ | _, _ | _⟩ | (_ | _) | _ <;>
    rw [hc] at hdec <;> cases hdec
  case mov =>
    obtain ⟨rfl, rfl⟩ := operands_of_classify_mov hc
    simp [StageOut.decoded, stage, hc, classCode, Decoded.ofInstr]
  case mvi =>
    obtain rfl := operand_of_classify_mvi hc
    simp [StageOut.decoded, stage, hc, classCode, Decoded.ofInstr, immPort_of_mvi hc hav]
  case direct.Store | direct.Load =>
    simp [StageOut.decoded, stage, hc, classCode, dirBit, Decoded.ofInstr, addrPort_of_direct hc hav]
  all_goals
    simp [StageOut.decoded, stage, hc, classCode, dirBit, pairBit, pairOfBit, Decoded.ofInstr]

/-! ### The stage driven from a state -/

theorem State.stageIn_op {s : State} {op : Byte} (hop : s.img.read s.cur = some op)
    (u0 u1 u2 : Byte) : (s.stageIn u0 u1 u2).op = op := by
  simp [State.stageIn, hop]

theorem State.toNat_stageIn_avail (s : State) (u0 u1 u2 : Byte) :
    (s.stageIn u0 u1 u2).avail.toNat = min (s.img.len - s.cur) 3 :=
  (BitVec.toNat_ofNat _ _).trans (Nat.mod_eq_of_lt (Nat.lt_succ_of_le (Nat.min_le_right _ _)))

/-- R26: the byte ports carry the window, and other bytes where it ends. -/
theorem State.window_append_eq_stageIn {s : State} (hcur : s.cur < s.img.len) (u0 u1 u2 : Byte) :
    ∃ rest, s.img.window s.cur ++ rest =
      [(s.stageIn u0 u1 u2).op, (s.stageIn u0 u1 u2).b1, (s.stageIn u0 u1 u2).b2] := by
  obtain ⟨op, hop⟩ := Memory.read_of_lt hcur
  rw [Memory.window_eq_toList]
  unfold State.stageIn
  rcases h1 : s.img.read (s.cur + 1) with _ | b1
  · have h2 : s.img.read (s.cur + 2) = none := by
      rw [Memory.read_eq_none_iff] at h1 ⊢; omega
    exact ⟨[u1, u2], by simp [hop, h2]⟩
  · rcases h2 : s.img.read (s.cur + 2) with _ | b2
    · exact ⟨[u2], by simp [hop]⟩
    · exact ⟨[], by simp [hop]⟩

/-- R84: the truncation port compares the bytes left with the length. -/
theorem State.trunc_eq_one_iff {s : State} {op : Byte} (hop : s.img.read s.cur = some op)
    (u0 u1 u2 : Byte) :
    (stage (s.stageIn u0 u1 u2)).trunc = 1 ↔ s.img.len - s.cur < insnLen op := by
  have hle := insnLen_le op
  show truncBit _ _ = 1 ↔ _
  rw [truncBit_eq_one_iff, State.stageIn_op hop, State.toNat_stageIn_avail]
  omega

/-- R131: the step from the ports, where an instruction is truncated. -/
theorem stepFromOutputs_truncated {s : State} {op : Byte} (hop : s.img.read s.cur = some op)
    (hdec : decodeAt s.img s.cur = .truncated) (u0 u1 u2 : Byte) :
    stepFromOutputs (stage (s.stageIn u0 u1 u2)) s = .next s.takeTruncated :=
  if_pos ((State.trunc_eq_one_iff hop u0 u1 u2).2 ((decodeAt_eq_truncated_iff hop).1 hdec))

/-- R131: the step from the ports, where an instruction is decoded: the bytes after it do not matter. -/
theorem stepFromOutputs_complete {s : State} {op : Byte} {i : Instr} {L : Nat}
    (hop : s.img.read s.cur = some op) (hdec : decodeAt s.img s.cur = .ok i L) (u0 u1 u2 : Byte) :
    stepFromOutputs (stage (s.stageIn u0 u1 u2)) s =
      .next ((s.emit (Decoded.ofInstr i)).advance L) := by
  obtain ⟨-, -, hle⟩ := decodeAt_ok hdec
  have hL : L = insnLen op := (decodeAt_ok_length hop hdec).trans (one_add_extraBytes op)
  have hpos := insnLen_pos op
  have hlen3 := insnLen_le op
  obtain ⟨rest, hports⟩ := State.window_append_eq_stageIn (s := s) (by omega) u0 u1 u2
  have hportsDec := decode_append hdec rest
  rw [hports] at hportsDec
  have hav : insnLen (s.stageIn u0 u1 u2).op ≤ (s.stageIn u0 u1 u2).avail.toNat := by
    rw [State.stageIn_op hop, State.toNat_stageIn_avail]; omega
  have htrunc : ¬(stage (s.stageIn u0 u1 u2)).trunc = 1 := by
    rw [State.trunc_eq_one_iff hop]; omega
  rw [stepFromOutputs, if_neg htrunc, decoded_stage hportsDec hav]
  simp only [toNat_stage_len, State.stageIn_op hop, hL]

/-! ### The obligations -/

/-- Settles O18: each clause is about the class code, direction or pair of a class, or about a port that is
a function of the opcode (and `avail`). -/
theorem classCodesAndPortDependence : Obligations.ClassCodesAndPortDependence := by
  refine ⟨fun i => ?unused, fun i => ?codes, fun i => ?dirn, fun i => ?pair, fun i j hop => ?opOnly,
    fun i j hop hav => ?trunc⟩
  case opOnly => simp [stage, hop]
  case trunc => simp [stage, hop, hav]
  -- the clauses about codes: class by class
  all_goals simp only [stage]; cases classify i.op <;> simp [classCode, dirBit, pairBit]

/-- Settles O22: `avail` is the bytes left, at most 3, and the length is at most 3. -/
theorem truncationDetectorIsExact : Obligations.TruncationDetectorIsExact := by
  intro s u0 u1 u2 op _ hop
  have hcur : s.cur < s.img.len := by
    by_contra hge
    rw [(Memory.read_eq_none_iff _ _).2 (Nat.not_lt.1 hge)] at hop; cases hop
  have htrunc := State.trunc_eq_one_iff hop u0 u1 u2
  rw [State.avail_eq]
  exact ⟨by omega, by omega, htrunc, htrunc.trans (decodeAt_eq_truncated_iff hop).symm⟩

/-- Settles O23: in phase Run, by the decoder's two answers. -/
theorem portBuildIsTheStep : Obligations.PortBuildIsTheStep := by
  intro u0 u1 u2 s
  cases hp : s.phase with
  | done => simp only [stepViaPorts, step, hp]
  | failed a => simp only [stepViaPorts, step, hp]
  | run =>
    obtain ⟨hf, hcur⟩ := (State.phase_eq_run_iff s).1 hp
    obtain ⟨op, hop⟩ := Memory.read_of_lt hcur
    simp only [stepViaPorts, hp]
    rcases decodeAt_cases hop with ⟨_, hdec⟩ | ⟨i, _, _, hdec⟩
    · rw [stepFromOutputs_truncated hop hdec, step_truncated hf hdec]
    · rw [stepFromOutputs_complete hop hdec, step_complete hf hdec]

end Sys2Proof.Machine
end

section
/-!
PROOFS. The rows of the opcode table (40_classifier.md R70 to R78), one rule for each family: which bytes
it has, what they decode to, its ports, that it completes, and where it is truncated.
-/
namespace Sys2Proof.Machine

/-! ### One rule for the four indirect rows, one for the two direct rows -/

/-- The instruction of an indirect class; `indirectRule` ties it to the decoder. -/
def indirectInstr : Dir → Pair → Instr
  | .Store, .B => .staxB
  | .Store, .D => .staxD
  | .Load, .B => .ldaxB
  | .Load, .D => .ldaxD

/-- R72 to R75, for every direction and pair. -/
theorem indirectRule (dir : Dir) (p : Pair) :
    (∀ op : Byte, classify op = .ind dir p ↔ op = indirectOpcode dir p) ∧
    (∀ rest : List Byte, decode (indirectOpcode dir p :: rest) = .ok (indirectInstr dir p) 1) ∧
    (∀ (b1 b2 : Byte) (av : BitVec 2), 1 ≤ av.toNat →
      let o := stage ⟨indirectOpcode dir p, b1, b2, av⟩
      o.cls = 0b011 ∧ o.dirn = dirBit (.ind dir p) ∧ o.pair = pairBit (.ind dir p) ∧ o.len = 1 ∧
        o.trunc = 0) ∧
    (∀ s : State, s.fault = none → s.cur < s.img.len →
      exec (indirectInstr dir p) s = .next { s with
        cur := s.cur + 1
        ac := s.ac + 8
        lines := s.lines ++ [⟨s.ac, Decoded.ofInstr (indirectInstr dir p)⟩] }) ∧
    run [indirectOpcode dir p] = ([⟨0, Decoded.ofInstr (indirectInstr dir p)⟩], some .done) := by
  have hclass := (classify_ind_iff (indirectOpcode dir p) dir p).2 rfl
  refine ⟨fun op => classify_ind_iff op dir p, fun rest => ?decode, fun b1 b2 av hav => ?ports,
    fun s hf hcur => ?complete, ?pass⟩
  case decode => rw [decode, hclass]; cases dir <;> cases p <;> rfl
  case ports => exact stage_oneByte_ports hclass rfl b1 b2 hav
  case complete => cases dir <;> cases p <;> exact exec_complete hf hcur
  case pass => cases dir <;> cases p <;> decide

/-- R76, R77, for each direction. -/
theorem directRule (dir : Dir) :
    (∀ op : Byte, classify op = .direct dir ↔ op = directOpcode dir) ∧
    (∀ (lo hi : Byte) (rest : List Byte), ∃ a : Addr16,
      decode (directOpcode dir :: lo :: hi :: rest) = .ok (directInstr dir a) 3 ∧
        a.toNat = 256 * hi.toNat + lo.toNat) ∧
    (∀ (b1 b2 : Byte) (av : BitVec 2),
      let o := stage ⟨directOpcode dir, b1, b2, av⟩
      o.cls = 0b100 ∧ o.dirn = dirBit (.direct dir) ∧ o.pair = 0 ∧ o.len = 3 ∧
        (o.trunc = 1 ↔ av.toNat < 3) ∧ (av = 3 → o.addr16 = assembleAddr b2 b1)) ∧
    (∀ (a : Addr16) (s : State), s.fault = none → s.cur + 3 ≤ s.img.len →
      exec (directInstr dir a) s = .next { s with
        cur := s.cur + 3
        ac := s.ac + 24
        lines := s.lines ++ [⟨s.ac, Decoded.ofInstr (directInstr dir a)⟩] }) ∧
    (∀ s : State, s.fault = none → s.img.read s.cur = some (directOpcode dir) →
      s.img.len ≤ s.cur + 2 → step s = .next { s with fault := some s.ac }) := by
  have hclass := (classify_direct_iff (directOpcode dir) dir).2 rfl
  have hlen3 : insnLen (directOpcode dir) = 3 := by rw [insnLen, hclass, Class.len]
  refine ⟨fun op => classify_direct_iff op dir, fun lo hi rest => ?decode, fun b1 b2 av => ?ports,
    fun a s hf hle => ?complete, fun s hf hop hle => ?truncated⟩
  case decode => exact ⟨_, decode_direct hclass lo hi rest, toNat_assembleAddr hi lo⟩
  case ports =>
    obtain ⟨hcls, hdirn, hpair, hlen⟩ := stage_class_ports hclass b1 b2 av
    refine ⟨hcls, hdirn, hpair, hlen, hlen3 ▸ truncBit_eq_one_iff _ av, ?_⟩
    rintro rfl
    exact addrPort_of_direct hclass hlen3.le
  case complete => cases dir <;> exact exec_complete hf hle
  case truncated => exact step_truncated hf ((decodeAt_eq_truncated_iff hop).2 (by omega))

theorem insnLen_of_mviBits {op : Byte} (h : topField op = 0b00#2 ∧ srcField op = 0b110#3) :
    insnLen op = 2 := by
  rw [insnLen, classify_of_mviBits h, Class.len]

/-! ### The obligations -/

/-- Settles O8: `indirectRule` at Store and B. -/
theorem staxBRule : Obligations.StaxBRule := indirectRule .Store .B

/-- Settles O9: `indirectRule` at Store and D. -/
theorem staxDRule : Obligations.StaxDRule := indirectRule .Store .D

/-- Settles O10: `indirectRule` at Load and B. -/
theorem ldaxBRule : Obligations.LdaxBRule := indirectRule .Load .B

/-- Settles O11: `indirectRule` at Load and D. -/
theorem ldaxDRule : Obligations.LdaxDRule := indirectRule .Load .D

/-- Settles O12: `directRule` at Store; the worked example is a pass of one line. -/
theorem staRule : Obligations.StaRule := by
  obtain ⟨hclass, hdecode, hports, hcomplete, htruncated⟩ := directRule .Store
  exact ⟨hclass, hdecode, hports, hcomplete, htruncated, by decide⟩

/-- Settles O13: `directRule` at Load; the worked example is a pass of one line. -/
theorem ldaRule : Obligations.LdaRule := by
  obtain ⟨hclass, hdecode, hports, hcomplete, htruncated⟩ := directRule .Load
  exact ⟨hclass, hdecode, hports, hcomplete, htruncated, by decide⟩

/-- Settles O6: the class follows from the top bits (`classify_of_movBits`), the rest from the class. -/
theorem movRule : Obligations.MovRule := by
  refine ⟨fun op rest htop => ?decode, fun op b1 b2 av htop hav => ?ports,
    fun d r s hf hcur => exec_complete hf hcur, by decide, by decide⟩
  case decode =>
    have hclass := classify_of_movBits htop
    exact ⟨hclass, by rw [decode, hclass]; rfl⟩
  case ports => exact stage_oneByte_ports (classify_of_movBits htop) rfl b1 b2 hav

/-- Settles O7: the class follows from the top bits and the source field (`classify_of_mviBits`), the rest
from the class. -/
theorem mviRule : Obligations.MviRule := by
  refine ⟨fun op h => ⟨classify_of_mviBits h, insnLen_of_mviBits h⟩, mviBits_iff_mem, by decide,
    fun op imm rest h => decode_mvi (classify_of_mviBits h) imm rest, fun op b1 b2 av h => ?ports,
    fun d imm s hf hle => exec_complete hf hle, fun s op hf hop h hlast => ?truncated, by decide⟩
  case ports =>
    have hclass := classify_of_mviBits h
    have hlen2 := insnLen_of_mviBits h
    obtain ⟨hcls, hdirn, hpair, hlen⟩ := stage_class_ports hclass b1 b2 av
    exact ⟨hcls, h.2, hdirn, hpair, hlen, (truncBit_eq_one_iff op av).trans (by rw [hlen2]),
      fun hav => immPort_of_mvi hclass (hlen2.trans_le hav)⟩
  case truncated =>
    have hlen2 := insnLen_of_mviBits h
    exact step_truncated hf ((decodeAt_eq_truncated_iff hop).2 (by omega))

/-- Settles O14: an unrecognised byte is of class `unk`, whose instruction has one byte. -/
theorem unknownRule : Obligations.UnknownRule := by
  have hdecode : ∀ (op : Byte) (rest : List Byte), unrecognised op = true →
      decode (op :: rest) = .ok (.unknown op) 1 := fun op rest h => by
    rw [decode, classify_of_unrecognised op h]; rfl
  refine ⟨fun op rest h => ⟨classify_of_unrecognised op h, hdecode op rest h⟩,
    fun op b1 b2 av h hav => ?ports, fun op s hf hcur => exec_complete hf hcur,
    fun op s hf hop h => ?step, by decide, by decide⟩
  case ports => exact stage_oneByte_ports (classify_of_unrecognised op h) rfl b1 b2 hav
  case step => exact step_complete hf (decodeAt_of_decode_cons hop fun rest => hdecode op rest h)

end Sys2Proof.Machine
end

section
/-!
PROOFS. Whole passes (45_decode_loop.md R94 to R101, 60_exceptions.md R118, R119): a pass ends, equals the
disassembly of its bytes, and its lines tile the bytes it consumed.
-/
namespace Sys2Proof.Machine

/-! ### The loop -/

theorem loop_succ_of_step {s t : State} (h : step s = .next t) (k : Nat) :
    loop (k + 1) s = loop k t := by
  rw [loop, h]

/-- R93, R96: in a terminal phase the loop stops. -/
theorem loop_of_ne_run {s : State} (hp : s.phase ≠ .run) : ∀ k, loop k s = s
  | 0 => rfl
  | k + 1 => by
    rw [loop]
    split
    · next t h => exact absurd h (step_ne_next hp t)
    · rfl
    · rfl

theorem loop_add : ∀ (k j : Nat) (s : State), loop (k + j) s = loop j (loop k s)
  | 0, j, s => by rw [Nat.zero_add, loop]
  | k + 1, j, s => by
    by_cases hp : s.phase = .run
    · obtain ⟨t, ht⟩ := step_of_run hp
      rw [Nat.add_right_comm, loop_succ_of_step ht, loop_succ_of_step ht, loop_add k j t]
    · simp only [loop_of_ne_run hp]

/-- A bound on the steps a state still takes: its unconsumed bytes, none once the pass has failed. -/
def State.stepsLeft (s : State) : Nat :=
  match s.fault with
  | none => s.img.len - s.cur
  | some _ => 0

theorem State.stepsLeft_eq_zero_iff (s : State) : s.stepsLeft = 0 ↔ s.phase ≠ .run := by
  rw [Ne, State.phase_eq_run_iff, State.stepsLeft]
  cases s.fault with
  | none => simp; omega
  | some a => simp

theorem step_stepsLeft_lt {s t : State} (h : step s = .next t) : t.stepsLeft < s.stepsLeft := by
  have hrun := (step_next h).1
  have hpos : 0 < s.stepsLeft := Nat.pos_of_ne_zero fun h0 => (s.stepsLeft_eq_zero_iff.1 h0) hrun
  have hf := step_fault_eq_none h
  obtain ⟨_, ⟨_, rfl⟩ | ⟨i, _, hle, rfl⟩⟩ := step_next h
  · exact hpos
  · have hlen := i.len_pos
    simp only [State.stepsLeft, State.advance_fault, State.emit_fault, hf, State.advance_img,
      State.emit_img, State.advance_cur, State.emit_cur] at hpos ⊢
    omega

/-- R95: enough fuel brings the pass to a terminal phase. -/
theorem loop_ne_run : ∀ {k : Nat} {s : State}, s.stepsLeft ≤ k → (loop k s).phase ≠ .run
  | 0, s, h => s.stepsLeft_eq_zero_iff.1 (Nat.le_zero.1 h)
  | k + 1, s, h => by
    by_cases hp : s.phase = .run
    · obtain ⟨t, ht⟩ := step_of_run hp
      have hlt := step_stepsLeft_lt ht
      rw [loop_succ_of_step ht]
      exact loop_ne_run (by omega)
    · rwa [loop_of_ne_run hp]

theorem passStart_stepsLeft (img : List Byte) : (passStart img).stepsLeft = img.length := rfl

theorem run_reaches (img : List Byte) :
    Reaches (passStart img) (loop (img.length + 1) (passStart img)) := loop_reaches _ _

/-! ### The outcome of a state (R96) -/

theorem State.outcome_eq_done_iff (s : State) : s.outcome = some .done ↔ s.phase = .done := by
  unfold State.outcome
  cases s.phase <;> simp

theorem State.outcome_eq_failed_iff (s : State) (a : Nat) :
    s.outcome = some (.failed a) ↔ s.fault = some a := by
  rw [← State.phase_eq_failed_iff]
  unfold State.outcome
  cases s.phase <;> simp

/-! ### The pass is the disassembly -/

theorem disassemble_of_truncated {bs : List Byte} (h : decode bs = .truncated) (a : Nat) :
    disassemble a bs = ([], .failed a) := by
  cases bs with
  | nil => cases h
  | cons op rest =>
    rw [decode] at h
    generalize hc : classify op = c at h
    unfold decodeOperands at h
    split at h <;> cases h <;> simp only [disassemble, hc]

theorem disassemble_of_ok {bs : List Byte} {i : Instr} {L : Nat} (h : decode bs = .ok i L) (a : Nat) :
    disassemble a bs =
      disassemble.put ⟨a, Decoded.ofInstr i⟩ (disassemble (a + 8 * L) (bs.drop L)) := by
  cases bs with
  | nil => cases h
  | cons op rest =>
    rw [decode] at h
    generalize hc : classify op = c at h
    unfold decodeOperands at h
    split at h <;> cases h <;>
      simp only [disassemble, hc, Decoded.ofInstr, disassemble.direct, List.drop_succ_cons,
        List.drop_zero]

/-- The lines and the outcome of at most `k` steps from `s` are those of `s` followed by the disassembly
of the bytes from its cursor on. -/
def LoopDisassembles (k : Nat) (s : State) : Prop :=
  (loop k s).lines = s.lines ++ (disassemble s.ac (s.img.bytes.drop s.cur)).1 ∧
    (loop k s).outcome = some (disassemble s.ac (s.img.bytes.drop s.cur)).2

theorem loopDisassembles_of_done {s : State} (hp : s.phase = .done) (k : Nat) :
    LoopDisassembles k s := by
  obtain ⟨-, hend⟩ := (State.phase_eq_done_iff s).1 hp
  have hdrop : s.img.bytes.drop s.cur = [] := List.drop_eq_nil_of_le (by simpa using hend)
  rw [LoopDisassembles, loop_of_ne_run (by simp [hp]), hdrop, (State.outcome_eq_done_iff s).2 hp]
  simp [disassemble]

theorem loopDisassembles_of_truncated {s : State} (hf : s.fault = none)
    (hdec : decodeAt s.img s.cur = .truncated) (k : Nat) : LoopDisassembles (k + 1) s := by
  have hp := s.phase_takeTruncated
  rw [LoopDisassembles, loop_succ_of_step (step_truncated hf hdec), loop_of_ne_run (by simp [hp]),
    disassemble_of_truncated (decodeAt_eq_decode_drop _ _ ▸ hdec),
    (State.outcome_eq_failed_iff _ _).2 rfl]
  simp

theorem loopDisassembles_of_ok {s : State} {i : Instr} {L k : Nat} (hf : s.fault = none)
    (hdec : decodeAt s.img s.cur = .ok i L)
    (h : LoopDisassembles k ((s.emit (Decoded.ofInstr i)).advance L)) :
    LoopDisassembles (k + 1) s := by
  unfold LoopDisassembles at h ⊢
  rw [loop_succ_of_step (step_complete hf hdec),
    disassemble_of_ok (decodeAt_eq_decode_drop _ _ ▸ hdec), List.drop_drop]
  simpa [disassemble.put] using h

/-- R96: with enough fuel the pass from any state with no fault is the disassembly of what is left. -/
theorem loop_disassembles : ∀ {k : Nat} {s : State}, s.fault = none → s.stepsLeft ≤ k →
    LoopDisassembles k s := by
  intro k
  induction k with
  | zero =>
    intro s hf hk
    have hp := s.stepsLeft_eq_zero_iff.1 (Nat.le_zero.1 hk)
    rw [Ne, State.phase_eq_run_iff] at hp
    exact loopDisassembles_of_done ((State.phase_eq_done_iff s).2 ⟨hf, by simpa [hf] using hp⟩) 0
  | succ k ih =>
    intro s hf hk
    rcases Nat.lt_or_ge s.cur s.img.len with hcur | hend
    · obtain ⟨op, hop⟩ := Memory.read_of_lt hcur
      rcases decodeAt_cases hop with ⟨_, hdec⟩ | ⟨i, _, _, hdec⟩
      · exact loopDisassembles_of_truncated hf hdec k
      · have hlt := step_stepsLeft_lt (step_complete hf hdec)
        exact loopDisassembles_of_ok hf hdec (ih hf (by omega))
    · exact loopDisassembles_of_done ((State.phase_eq_done_iff s).2 ⟨hf, hend⟩) _

/-! ### Passes over one-byte instructions -/

theorem disassemble_replicate_nop : ∀ (N a : Nat), disassemble a (List.replicate N 0x00) =
    ((List.range N).map fun k => ⟨a + 8 * k, .NOP⟩, .done)
  | 0, a => rfl
  | N + 1, a => by
    rw [List.replicate_succ, disassemble_of_ok (i := .nop) (L := 1) rfl, List.drop_succ_cons,
      List.drop_zero, disassemble_replicate_nop N (a + 8 * 1), List.range_succ_eq_map]
    simp [disassemble.put, Decoded.ofInstr, Nat.mul_add, Nat.add_comm, Nat.add_assoc,
      Function.comp_def]

/-- R80: a byte of length 1 is an instruction whatever follows it. -/
theorem decode_of_insnLen_one {op : Byte} (h : insnLen op = 1) (rest : List Byte) :
    ∃ i, decode (op :: rest) = .ok i 1 := by
  rcases decode_cases (op :: rest) with
    ⟨hnil, _⟩ | ⟨op', _, hb, hlt, _⟩ | ⟨op', _, i, hb, hlen, _, hok⟩
  · cases hnil
  · cases hb; rw [h, List.length_cons] at hlt; omega
  · cases hb; exact ⟨i, by rw [hok, hlen, h]⟩

theorem disassemble_oneByte : ∀ {bs : List Byte} (a : Nat), (∀ b ∈ bs, insnLen b = 1) →
    (disassemble a bs).1.map (fun l => l.addr) = (List.range bs.length).map (fun k => a + 8 * k) ∧
      (disassemble a bs).2 = .done
  | [], a, _ => ⟨rfl, rfl⟩
  | op :: rest, a, h => by
    obtain ⟨hop, hrest⟩ := List.forall_mem_cons.1 h
    obtain ⟨i, hdec⟩ := decode_of_insnLen_one hop rest
    obtain ⟨hlines, hdone⟩ := disassemble_oneByte (a + 8 * 1) hrest
    rw [disassemble_of_ok hdec, List.drop_succ_cons, List.drop_zero, List.length_cons,
      List.range_succ_eq_map]
    refine ⟨?_, hdone⟩
    simp [disassemble.put, hlines, Nat.mul_add, Nat.add_comm, Nat.add_assoc, Function.comp_def]

/-! ### Lines that tile -/

theorem Decoded.len_pos (d : Decoded) : 1 ≤ d.len := by cases d <;> simp [Decoded.len]

theorem linesTile_le : ∀ {ls : List Line} {a e : Nat}, linesTile a ls e → a ≤ e
  | [], _, _, h => h.le
  | _ :: _, _, _, ⟨_, hrest⟩ => (Nat.le_add_right _ _).trans (linesTile_le hrest)

/-- Every line stands, with its length, between the two ends. -/
theorem linesTile_mem : ∀ {ls : List Line} {a e : Nat}, linesTile a ls e → ∀ l ∈ ls,
    a ≤ l.addr ∧ l.addr + 8 * l.instr.len ≤ e
  | l :: ls, a, e, ⟨haddr, hrest⟩, l', hl' => by
    rcases List.mem_cons.1 hl' with rfl | hmem
    · exact ⟨haddr.ge, haddr ▸ linesTile_le hrest⟩
    · obtain ⟨hge, hle⟩ := linesTile_mem hrest l' hmem
      exact ⟨by omega, hle⟩

/-- R98: addresses rise strictly. -/
theorem linesTile_pairwise : ∀ {ls : List Line} {a e : Nat}, linesTile a ls e →
    ls.Pairwise fun l l' => l.addr < l'.addr
  | [], _, _, _ => .nil
  | l :: ls, a, e, ⟨haddr, hrest⟩ => by
    refine .cons (fun l' hl' => ?_) (linesTile_pairwise hrest)
    obtain ⟨hge, -⟩ := linesTile_mem hrest l' hl'
    have hpos := l.instr.len_pos
    omega

/-- R98: the address of a line by the lines before it. -/
theorem linesTile_addr : ∀ {ls : List Line} {a e k : Nat} {l : Line}, linesTile a ls e →
    ls[k]? = some l → l.addr = a + 8 * ((ls.take k).map fun l => l.instr.len).sum
  | _ :: _, a, e, 0, l, ⟨haddr, _⟩, hk => by
    cases hk; simpa using haddr
  | l₀ :: ls, a, e, k + 1, l, ⟨_, hrest⟩, hk => by
    have ih := linesTile_addr hrest hk
    simp [ih, Nat.mul_add, Nat.add_assoc]

/-! ### Two states of one pass -/

/-- A run is empty or has a first step. -/
theorem Reaches.eq_or_first {s t : State} (h : Reaches s t) :
    t = s ∨ ∃ u, step s = .next u ∧ Reaches u t := by
  induction h with
  | refl => exact .inl rfl
  | tail _ hstep ih =>
    rcases ih with rfl | ⟨u, hu, hut⟩
    · exact .inr ⟨_, hstep, .refl _⟩
    · exact .inr ⟨u, hu, .tail hut hstep⟩

/-- The step is a function, so of two states of a pass one is reached from the other. -/
theorem Reaches.total {a s t : State} (hs : Reaches a s) (ht : Reaches a t) :
    Reaches s t ∨ Reaches t s := by
  induction ht with
  | refl => exact .inr hs
  | @tail t u _ hstep ih =>
    rcases ih with hst | hts
    · exact .inl (.tail hst hstep)
    · rcases hts.eq_or_first with rfl | ⟨v, hv, hvs⟩
      · exact .inl (.single hstep)
      · rw [hstep] at hv; cases hv; exact .inr hvs

/-- R97: a state reached from where an instruction is decoded is there still, or past it. -/
theorem Reaches.cur_past_instruction {s t : State} {i : Instr} {L : Nat} (h : Reaches s t)
    (hdec : decodeAt s.img s.cur = .ok i L) : t.cur ≤ s.cur ∨ s.cur + L ≤ t.cur := by
  rcases h.eq_or_first with rfl | ⟨u, hu, hut⟩
  · exact .inl le_rfl
  · have hle := hut.cur_le
    rw [step_of_decodeAt_ok hu hdec] at hle
    exact .inr hle

/-- R118: a state of a pass with a fault recorded is the one before the truncated instruction, with
`Truncated` taken. -/
theorem Reaches.before_fault {img : List Byte} {t : State} {a : Nat} (h : Reaches (passStart img) t)
    (ha : t.fault = some a) : ∃ s, Reaches (passStart img) s ∧ s.fault = none ∧ s.ac = a ∧
      decodeAt s.img s.cur = .truncated ∧ t = s.takeTruncated := by
  cases h with
  | refl => cases ha
  | @tail s _ hs hstep =>
    have hf := step_fault_eq_none hstep
    obtain ⟨hdec, rfl⟩ := step_records_fault hstep ha
    exact ⟨s, hs, hf, Option.some.inj ha, hdec, rfl⟩

/-! ### The obligations -/

/-- Settles O43: each step uses up one of the `n` steps left at the start, and a terminal state stays. -/
theorem everyPassEnds : Obligations.EveryPassEnds := by
  intro img
  have hend := loop_ne_run (passStart_stepsLeft img).le
  refine ⟨img.length, le_rfl, hend, fun m hm => ?_⟩
  obtain ⟨j, rfl⟩ := Nat.exists_eq_add_of_le hm
  rw [loop_add, loop_of_ne_run hend]

/-- Settles O44: `loop_disassembles` from the start of the pass. -/
theorem passIsTheDisassembly : Obligations.PassIsTheDisassembly := by
  intro img
  obtain ⟨hlines, houtcome⟩ :=
    loop_disassembles (k := img.length + 1) (passStart_fault img) (Nat.le_succ _)
  rw [passStart_img, Memory.bytes_ofBytes] at hlines houtcome
  exact Prod.ext hlines houtcome

/-- Settles O45: of two states of a pass one is reached from the other. -/
theorem operandBytesAreNeverClassified : Obligations.OperandBytesAreNeverClassified := by
  intro img s t i L hs ht hdec
  rcases hs.total ht with hst | hts
  · exact hst.cur_past_instruction hdec
  · exact .inl hts.cur_le

/-- Settles O46: the lines of the pass tile its bytes from address 0. -/
theorem lineAddressesAreSumsOfLengths : Obligations.LineAddressesAreSumsOfLengths := by
  intro img
  have htile := (run_reaches img).inv.linesTile
  exact ⟨fun k l hl => (linesTile_addr htile hl).trans (Nat.zero_add _), linesTile_pairwise htile⟩

/-- Settles O47: the lengths sum to the cursor, which is `n` in phase Done and is where the truncated
instruction stands in phase Failed. -/
theorem lineLengthsCoverTheConsumedBytes : Obligations.LineLengthsCoverTheConsumedBytes := by
  intro img
  have hreach := run_reaches img
  have hsum := hreach.cursorAfterLines
  have himg : (loop (img.length + 1) (passStart img)).img.len = img.length :=
    congrArg Memory.len hreach.img_eq
  refine ⟨fun hdone => ?done, fun a hfailed => ?failed⟩
  case done =>
    obtain ⟨-, hge⟩ := (State.phase_eq_done_iff _).1 ((State.outcome_eq_done_iff _).1 hdone)
    rw [himg] at hge
    exact hsum.symm.trans (hreach.cur_le_length.antisymm hge)
  case failed =>
    obtain ⟨rfl, hdec⟩ := hreach.inv.faultAt a ((State.outcome_eq_failed_iff _ a).1 hfailed)
    have hlt := decodeAt_truncated_lt hdec
    rw [himg] at hlt
    rw [hreach.inv.acEq, Nat.mul_div_cancel_left _ (by decide)]
    exact ⟨congrArg (8 * ·) hsum.symm, hlt⟩

/-- Settles O48: by the disassembly of zero bytes. -/
theorem allNopImage : Obligations.AllNopImage := by
  intro N
  rw [passIsTheDisassembly, disassemble_replicate_nop]
  simp

/-- Settles O49: by the disassembly of one-byte instructions. -/
theorem oneByteInstructionImages : Obligations.OneByteInstructionImages := by
  intro img h
  obtain ⟨hlines, hdone⟩ := disassemble_oneByte 0 h
  rw [passIsTheDisassembly]
  exact ⟨by simpa using hlines, congrArg some hdone⟩

/-- Settles O50: the failed state is reached by the step that took `Truncated` (`Reaches.before_fault`). -/
theorem failureIsPrecise : Obligations.FailureIsPrecise := by
  intro img a h
  obtain ⟨s, hs, hf, rfl, hdec, heq⟩ :=
    (run_reaches img).before_fault ((State.outcome_eq_failed_iff _ a).1 h)
  exact ⟨s, hs, hf, rfl, hdec, heq,
    (congrArg State.lines heq).trans s.takeTruncated_lines⟩

end Sys2Proof.Machine
end

section
/-!
PROOFS. The world around a pass (10_state.md R19, R27, R46, 70_reset_and_hazards.md R127, R129): the bounds
of a started pass, what the host holds, and several passes side by side.
-/
namespace Sys2Proof.Machine

/-! ### Bounds of a pass -/

/-- R18, R98: a line has at least one byte, so its address is 8 below the end of the image or lower. -/
theorem Reaches.addr_le {img : List Byte} {t : State} (h : Reaches (passStart img) t) {l : Line}
    (hl : l ∈ t.lines) : l.addr ≤ 8 * (img.length - 1) := by
  have hac := h.inv.acEq
  have hcur := h.cur_le_length
  have hpos := l.instr.len_pos
  obtain ⟨-, hle⟩ := linesTile_mem h.inv.linesTile l hl
  omega

/-! ### The host's record -/

/-- A session event that has a next state is an event of the machine, and extends both records. -/
theorem Session.react_next {cfg : Config} {e : Event} {h h' : Session}
    (hr : Session.react cfg e h = .next h') :
    ∃ ls os, h'.received = h.received ++ ls ∧ h'.reports = h.reports ++ os := by
  unfold Session.react at hr
  cases hm : Machine.react cfg e h.machine with
  | fault f => rw [hm] at hr; cases hr
  | refused r => rw [hm] at hr; cases hr
  | next t =>
    rw [hm] at hr
    cases e with
    | step => cases hr; exact ⟨_, _, rfl, rfl⟩
    | start img => cases hr; exact ⟨[], _, (List.append_nil _).symm, rfl⟩
    | changeImage img => cases hr; exact ⟨[], [], (List.append_nil _).symm, (List.append_nil _).symm⟩

theorem Session.react_step_next {cfg : Config} {h h' : Session}
    (hr : Session.react cfg .step h = .next h') : step h.machine = .next h'.machine ∧
      h'.received = h.received ++ lineOut h.machine ∧
      h'.reports = h.reports ++ h'.machine.outcome.toList := by
  rw [Session.react, Machine.react] at hr
  cases hm : step h.machine with
  | fault f => rw [hm] at hr; cases hr
  | refused r => rw [hm] at hr; cases hr
  | next t => rw [hm] at hr; cases hr; exact ⟨rfl, rfl, rfl⟩

/-- R27, R92: the step's lines are those before it and the line-out port's. -/
theorem lines_append_lineOut {s t : State} (h : step s = .next t) :
    t.lines = s.lines ++ lineOut s := by
  rw [lineOut_of_step h]
  exact (List.prefix_iff_eq_append.1 (step_lines_prefix h)).symm

theorem react_start {cfg : Config} {img : List Byte} (h : img.length ≤ cfg.maxImageLen)
    (old : State) : react cfg (.start img) old = .next (passStart img) := if_pos h

/-- R94: a pass has its outcome at the start exactly over the empty image. -/
theorem passStart_outcome_toList (img : List Byte) :
    (passStart img).outcome.toList = if img = [] then [.done] else [] := by
  cases img with
  | nil => rfl
  | cons b bs =>
    have hp : (passStart (b :: bs)).phase = .run :=
      (State.phase_eq_run_iff _).2 ⟨rfl, Nat.succ_pos _⟩
    rw [(State.outcome_eq_none_iff _).2 hp]
    rfl

/-! ### Several passes -/

/-- R46: what stepping number `k` of several passes does to their list. -/
theorem stepInstance_next {k : Nat} {ss tt : List State} (h : stepInstance k ss = .next tt) :
    (ss[k]? = none ∧ tt = ss) ∨
      ∃ s t, ss[k]? = some s ∧ step s = .next t ∧ tt = ss.set k t := by
  unfold stepInstance at h
  cases hk : ss[k]? with
  | none => rw [hk] at h; cases h; exact .inl ⟨rfl, rfl⟩
  | some s =>
    rw [hk] at h
    cases hs : step s with
    | next t => simp only [hs] at h; cases h; exact .inr ⟨s, t, rfl, hs, rfl⟩
    | fault f => simp only [hs] at h; cases h
    | refused r => simp only [hs] at h; cases h

/-- R46: entry `k` takes its own step, if there is an entry `k`. -/
theorem stepInstance_own {k : Nat} {ss tt : List State} (h : stepInstance k ss = .next tt) :
    tt[k]?.map .next = ss[k]?.map step := by
  rcases stepInstance_next h with ⟨hk, rfl⟩ | ⟨s, t, hk, hstep, rfl⟩
  · rw [hk]; rfl
  · obtain ⟨hlt, -⟩ := List.getElem?_eq_some_iff.1 hk
    rw [List.getElem?_set_self hlt, hk, Option.map_some, Option.map_some, hstep]

/-! ### The obligations -/

/-- Settles O52: the two branches of `start`; then the bounds of the image's length on the pass. -/
theorem startRespectsTheImageBound : Obligations.StartRespectsTheImageBound := by
  intro cfg img old
  refine ⟨fun hlong => if_neg (Nat.not_le.2 hlong), fun hfit =>
    ⟨react_start hfit old, fun t ht => ?_⟩⟩
  have hcur := ht.cur_le_length
  have hac := ht.inv.acEq
  refine ⟨hcur.trans hfit, by omega, fun l hl => (ht.addr_le hl).trans ?_⟩
  omega

/-- Settles O53: every event extends the records (`Session.react_next`); a step by its line-out port and
its outcome. -/
theorem hostKeepsLinesAcrossPasses : Obligations.HostKeepsLinesAcrossPasses := by
  refine ⟨fun cfg e h h' hr => ?grow, fun cfg img h hfit => ?start, fun cfg h h' hr => ?step⟩
  case grow =>
    obtain ⟨ls, os, hreceived, hreports⟩ := Session.react_next hr
    exact ⟨⟨ls, hreceived.symm⟩, ⟨os, hreports.symm⟩⟩
  case start =>
    rw [Session.react, react_start hfit]
    simp only [passStart_outcome_toList]
  case step =>
    obtain ⟨hstep, hreceived, hreports⟩ := Session.react_step_next hr
    exact ⟨hreceived, hreports, lines_append_lineOut hstep⟩

/-- Settles O54: the step writes entry `k` alone, from entry `k` alone (`stepInstance_own`). -/
theorem instancesAreIndependent : Obligations.InstancesAreIndependent := by
  refine ⟨fun k j ss tt h hjk => ?others, fun k ss ss' tt tt' hsame h h' => ?own⟩
  case others =>
    rcases stepInstance_next h with ⟨-, rfl⟩ | ⟨s, t, -, -, rfl⟩
    · rfl
    · exact List.getElem?_set_ne hjk.symm
  case own =>
    refine Option.map_injective (f := (.next : State → Host.Outcome State Fault Refusal))
      (fun _ _ => Host.Outcome.next.inj) ?_
    rw [stepInstance_own h, hsame, stepInstance_own h']

end Sys2Proof.Machine
end

section
/-!
PROOFS. The text of lines (46_output_format.md R102 to R115): the digits of `hex` and their value, the
width of an address, and that the text tells the lines apart.
-/
namespace Sys2Proof.Machine

/-! ### Digits and their value (R103) -/

theorem hexDigit_mem : ∀ d < 16, hexDigit d ∈ "0123456789abcdef".toList := by decide

theorem idxOf_hexDigit : ∀ d < 16, "0123456789abcdef".toList.idxOf (hexDigit d) = d := by decide

theorem hexDigit_ne_zero : ∀ d < 16, 0 < d → hexDigit d ≠ '0' := by decide

/-- Induction along the digits of a value, from the most significant one. -/
theorem hexInduction {P : Nat → Prop} (small : ∀ v < 16, P v) (large : ∀ v, 16 ≤ v → P (v / 16) → P v)
    (v : Nat) : P v := by
  induction v using Nat.strongRecOn with
  | ind v ih =>
    rcases Nat.lt_or_ge v 16 with h | h
    · exact small v h
    · exact large v h (ih _ (Nat.div_lt_self (by omega) (by decide)))

theorem hexDigits_ne_nil (v : Nat) : hexDigits v ≠ [] := by
  induction v using hexInduction with
  | small v h => simp [hexDigits_of_lt h]
  | large v h _ => simp [hexDigits_of_le h]

theorem hexDigits_mem {v : Nat} : ∀ c ∈ hexDigits v, c ∈ "0123456789abcdef".toList := by
  induction v using hexInduction with
  | small v h => rw [hexDigits_of_lt h]; exact List.forall_mem_singleton.2 (hexDigit_mem v h)
  | large v h ih =>
    rw [hexDigits_of_le h]
    exact List.forall_mem_append.2
      ⟨ih, List.forall_mem_singleton.2 (hexDigit_mem _ (Nat.mod_lt v (by decide)))⟩

/-- The digits of a positive value do not start with a zero. -/
theorem head?_hexDigits {v : Nat} (hv : 0 < v) : (hexDigits v).head? ≠ some '0' := by
  induction v using hexInduction with
  | small v h => simpa [hexDigits_of_lt h] using hexDigit_ne_zero v h hv
  | large v h ih =>
    rw [hexDigits_of_le h, List.head?_append_of_ne_nil _ (hexDigits_ne_nil _)]
    exact ih (by omega)

/-- A value below `16 ^ w` has at most `w` digits. -/
theorem length_hexDigits_le : ∀ {w v : Nat}, 1 ≤ w → v < 16 ^ w → (hexDigits v).length ≤ w
  | w + 1, v, hw, hv => by
    rcases Nat.lt_or_ge v 16 with h | h
    · rw [hexDigits_of_lt h]; exact hw
    · have hq : v / 16 < 16 ^ w := Nat.div_lt_of_lt_mul (by rwa [Nat.pow_succ'] at hv)
      have hw1 : 1 ≤ w := by
        by_contra h0
        rw [Nat.lt_one_iff.1 (Nat.not_le.1 h0)] at hq
        omega
      rw [hexDigits_of_le h, List.length_append, List.length_singleton]
      exact Nat.succ_le_succ (length_hexDigits_le hw1 hq)

/-- A further digit counts one, what stands before it 16. -/
theorem hexValue_append_digit (ds : List Char) {d : Nat} (hd : d < 16) :
    hexValue (ds ++ [hexDigit d]) = 16 * hexValue ds + d := by
  rw [hexValue, List.foldl_append, List.foldl_cons, List.foldl_nil, idxOf_hexDigit d hd, hexValue]

theorem hexValue_hexDigits (v : Nat) : hexValue (hexDigits v) = v := by
  induction v using hexInduction with
  | small v h =>
    rw [hexDigits_of_lt h, ← List.nil_append [hexDigit v], hexValue_append_digit [] h]
    exact Nat.zero_add v
  | large v h ih =>
    rw [hexDigits_of_le h, hexValue_append_digit _ (Nat.mod_lt v (by decide)), ih]
    exact Nat.div_add_mod v 16

/-- Padding zeros do not count. -/
theorem hexValue_replicate_append (k : Nat) (ds : List Char) :
    hexValue (List.replicate k '0' ++ ds) = hexValue ds := by
  induction k with
  | zero => rfl
  | succ k ih => exact ih

theorem hexValue_paddedDigits (v w : Nat) : hexValue (paddedDigits v w) = v :=
  (hexValue_replicate_append _ _).trans (hexValue_hexDigits v)

theorem length_paddedDigits (v w : Nat) :
    (paddedDigits v w).length = max w (hexDigits v).length := by
  rw [paddedDigits, List.length_append, List.length_replicate]
  omega

theorem paddedDigits_mem {v w : Nat} : ∀ c ∈ paddedDigits v w, c ∈ "0123456789abcdef".toList := by
  refine List.forall_mem_append.2 ⟨fun c hc => ?_, hexDigits_mem⟩
  rw [List.eq_of_mem_replicate hc]; decide

/-- There is no padding zero beyond the width. -/
theorem head?_paddedDigits {v w : Nat} (hw : 1 ≤ w) (hlong : w < (paddedDigits v w).length) :
    (paddedDigits v w).head? ≠ some '0' := by
  rw [length_paddedDigits] at hlong
  have hdigits : w < (hexDigits v).length := by omega
  have hv : 0 < v := by
    by_contra h0
    have hle : (hexDigits v).length ≤ 1 := length_hexDigits_le le_rfl (by omega)
    omega
  rw [paddedDigits, Nat.sub_eq_zero_of_le hdigits.le]
  exact head?_hexDigits hv

/-! ### The text as characters -/

theorem toList_hex (v w : Nat) : (hex v w).toList = '0' :: 'x' :: paddedDigits v w := by
  simp [hex_eq_paddedDigits]

/-- R103: `hex` of any width tells values apart. -/
theorem hex_injective {v v' w : Nat} (h : (hex v w).toList = (hex v' w).toList) : v = v' := by
  rw [toList_hex, toList_hex, List.cons_inj_right, List.cons_inj_right] at h
  rw [← hexValue_paddedDigits v w, h, hexValue_paddedDigits]

/-- R104: a value that fits the width has exactly that many digits. -/
theorem length_hex {v w : Nat} (hw : 1 ≤ w) (hv : v < 16 ^ w) : (hex v w).length = 2 + w := by
  rw [← String.length_toList, toList_hex, List.length_cons, List.length_cons, length_paddedDigits,
    Nat.max_eq_left (length_hexDigits_le hw hv)]
  omega

/-- Two texts with the same separator, which stands before it in neither, agree before and after it. -/
theorem append_separator_inj {c : Char} : ∀ {x y z u : List Char}, c ∉ x → c ∉ y →
    x ++ c :: z = y ++ c :: u → x = y ∧ z = u
  | [], [], _, _, _, _, h => ⟨rfl, (List.cons.inj h).2⟩
  | [], b :: _, _, _, _, hy, h => absurd (List.cons.inj h).1 (List.ne_of_not_mem_cons hy)
  | b :: _, [], _, _, hx, _, h => absurd (List.cons.inj h).1.symm (List.ne_of_not_mem_cons hx)
  | a :: x, b :: y, z, u, hx, hy, h => by
    obtain ⟨rfl, htail⟩ := List.cons.inj h
    obtain ⟨rfl, hzu⟩ := append_separator_inj (List.not_mem_of_not_mem_cons hx)
      (List.not_mem_of_not_mem_cons hy) htail
    exact ⟨rfl, hzu⟩

theorem tab_notMem_hex (v w : Nat) : '\t' ∉ (hex v w).toList := by
  rw [toList_hex]
  have hdigits : '\t' ∉ paddedDigits v w := fun h => absurd (paddedDigits_mem _ h) (by decide)
  simpa using hdigits

theorem regText_injective {r r' : Reg} (h : regText r = regText r') : r = r' := by
  have hfields : ∀ k k' : RegField, regText (Reg.ofField k) = regText (Reg.ofField k') → k = k' := by
    decide
  have hk := hfields r.field r'.field (by rwa [Reg.ofField_field, Reg.ofField_field])
  rw [← Reg.ofField_field r, hk, Reg.ofField_field]

theorem space_notMem_regText (r : Reg) : ' ' ∉ (regText r).toList := by
  cases r <;> decide

theorem pairText_injective {p p' : Pair} (h : pairText p = pairText p') : p = p' := by
  cases p <;> cases p'
  · rfl
  · exact absurd h (by decide)
  · exact absurd h (by decide)
  · rfl

/-! ### The mnemonic as keyword and operands -/

/-- The first four characters of a mnemonic, fewer for NOP; `take_mnemonic` ties it to `mnemonic`. -/
def keyword : Decoded → String
  | .NOP => "NOP"
  | .MOV _ _ => "MOV "
  | .MVI _ _ => "MVI "
  | .STAX _ => "STAX"
  | .LDAX _ => "LDAX"
  | .STA _ => "STA "
  | .LDA _ => "LDA "
  | .UNKNOWN => "UNKN"

/-- The characters of a mnemonic after the first four; `drop_mnemonic` ties it to `mnemonic`. -/
def operandText (cfg : Config) : Decoded → List Char
  | .NOP => []
  | .MOV d s => (regText d).toList ++ ' ' :: (regText s).toList
  | .MVI d imm => (regText d).toList ++ ' ' :: (hex imm.toNat cfg.immHexWidth).toList
  | .STAX p | .LDAX p => ' ' :: (pairText p).toList
  | .STA a | .LDA a => (hex a.toNat 4).toList
  | .UNKNOWN => ['O', 'W', 'N']

theorem take_mnemonic (cfg : Config) (d : Decoded) :
    (mnemonic cfg d).toList.take 4 = (keyword d).toList := by
  cases d <;> simp [mnemonic, keyword]

theorem drop_mnemonic (cfg : Config) (d : Decoded) :
    (mnemonic cfg d).toList.drop 4 = operandText cfg d := by
  cases d <;> simp [mnemonic, operandText]

/-- R115: the operands are told apart by their text, given the keyword. -/
theorem eq_of_keyword_operandText {cfg : Config} {d d' : Decoded} (hk : keyword d = keyword d')
    (ho : operandText cfg d = operandText cfg d') : d = d' := by
  cases d with
  | NOP =>
    cases d' with
    | NOP => rfl
    | _ => simp [keyword] at hk
  | MOV r s =>
    cases d' with
    | MOV r' s' =>
      obtain ⟨hr, hs⟩ := append_separator_inj (space_notMem_regText r) (space_notMem_regText r') ho
      rw [regText_injective (String.ext hr), regText_injective (String.ext hs)]
    | _ => simp [keyword] at hk
  | MVI r imm =>
    cases d' with
    | MVI r' imm' =>
      obtain ⟨hr, himm⟩ := append_separator_inj (space_notMem_regText r) (space_notMem_regText r') ho
      rw [regText_injective (String.ext hr), BitVec.eq_of_toNat_eq (hex_injective himm)]
    | _ => simp [keyword] at hk
  | STAX p =>
    cases d' with
    | STAX p' => rw [pairText_injective (String.ext (List.cons.inj ho).2)]
    | _ => simp [keyword] at hk
  | LDAX p =>
    cases d' with
    | LDAX p' => rw [pairText_injective (String.ext (List.cons.inj ho).2)]
    | _ => simp [keyword] at hk
  | STA a =>
    cases d' with
    | STA a' => rw [BitVec.eq_of_toNat_eq (hex_injective ho)]
    | _ => simp [keyword] at hk
  | LDA a =>
    cases d' with
    | LDA a' => rw [BitVec.eq_of_toNat_eq (hex_injective ho)]
    | _ => simp [keyword] at hk
  | UNKNOWN =>
    cases d' with
    | UNKNOWN => rfl
    | _ => simp [keyword] at hk

theorem mnemonic_injective {cfg : Config} {d d' : Decoded} (h : mnemonic cfg d = mnemonic cfg d') :
    d = d' := by
  have hk : keyword d = keyword d' := by
    rw [← String.toList_inj, ← take_mnemonic cfg d, h, take_mnemonic]
  exact eq_of_keyword_operandText hk (by rw [← drop_mnemonic cfg d, h, drop_mnemonic])

theorem toList_render (cfg : Config) (l : Line) : (render cfg l).toList =
    (hex l.addr cfg.addrHexWidth).toList ++ '\t' :: ((mnemonic cfg l.instr).toList ++ ['\n']) := by
  simp [render]

/-! ### The obligations -/

/-- Settles O57: the padded digits. -/
theorem hexTextIsTheValue : Obligations.HexTextIsTheValue := fun v w hw =>
  ⟨paddedDigits v w, hex_eq_paddedDigits v w, paddedDigits_mem, hexValue_paddedDigits v w,
    length_paddedDigits v w ▸ Nat.le_max_left _ _, head?_paddedDigits hw⟩

/-- Settles O58: an address of a pass is at most 8 (n - 1), which R19's relation puts below 16 to the
width. -/
theorem addressWidthIsStable : Obligations.AddressWidthIsStable := by
  refine ⟨fun cfg img hfit hw hlen l hl => ⟨length_hex hw ?fits, rfl⟩, fun cfg lines => ?text⟩
  case fits =>
    have hle := (run_reaches img).addr_le hl
    have hbound : 8 * (img.length - 1) ≤ 8 * (cfg.maxImageLen - 1) := by omega
    exact (hle.trans hbound).trans_lt hfit
  case text => rw [outputText, String.toList_join, List.flatMap_map]

/-- Settles O59: the mnemonics by keyword and operands, the lines at the tab, which no address holds. -/
theorem renderingIsInjective : Obligations.RenderingIsInjective := by
  refine ⟨fun cfg d d' => mnemonic_injective, fun cfg l l' h => ?_⟩
  have hchars := congrArg String.toList h
  rw [toList_render, toList_render] at hchars
  obtain ⟨haddr, hrest⟩ := append_separator_inj (tab_notMem_hex _ _) (tab_notMem_hex _ _) hchars
  have hinstr := mnemonic_injective (String.ext (List.append_cancel_right hrest))
  obtain ⟨addr, instr⟩ := l
  obtain ⟨addr', instr'⟩ := l'
  exact congrArg₂ Line.mk (hex_injective haddr) hinstr

/-- Settles O55: the mnemonic's equation for each instruction; the two worked examples are evaluated. -/
theorem mnemonicTexts : Obligations.MnemonicTexts := by
  exact fun cfg => ⟨rfl, fun _ _ => rfl, ⟨by decide, rfl⟩, fun _ _ => rfl, by decide, rfl, rfl,
    fun _ => rfl, fun _ => rfl, rfl⟩

end Sys2Proof.Machine
end
